-- ==== Sys2Proof/Config.lean ====
section
/-! DEFINITION. The fixed implementation parameters of the CORE, spec/00_scope.md R5 ("None is
configurable"), and the content of memory that nothing has written. The one open parameter, FUEL (D20), is an
argument of the runners in Machine/Run.lean and Machine/HostInterface.lean. The CORE has no free value
(spec/93_implementation_defined.md: "Nothing in the CORE is `any value`"), so nothing here is opaque. -/

namespace Sys2Proof.Config

/-- R5 `NREGS`: number of general registers. -/
abbrev numRegs : Nat := 16

/-- R5 `XLEN`: width of a register and of every arithmetic result. -/
abbrev xlen : Nat := 8

/-- R5 `MEMSIZE`: number of memory cells; addresses 0 to 4095. -/
abbrev memSize : Nat := 4096

/-- R5 `CELL`: width of a memory cell. -/
abbrev cellWidth : Nat := 8

/-- R5 `ILEN`: width of every instruction. -/
abbrev ilen : Nat := 16

/-- R5 `FIELD`: width of each of the four instruction fields. -/
abbrev fieldWidth : Nat := 4

/-- R5 `ADDRLEN`: width of a JUMP or CALL target. -/
abbrev addrLen : Nat := 12

/-- R5 `STACKDEPTH`: number of call-stack entries. -/
abbrev stackDepth : Nat := 16

/-- R5 `STACKW`: width of a call-stack entry. -/
abbrev stackWidth : Nat := 16

/-- R5 `SPMAX`: largest value of the stack pointer. -/
abbrev spMax : Nat := 16

/-- R5 `FETCHLIMIT`: a step is taken only while `pc < FETCHLIMIT`. -/
abbrev fetchLimit : Nat := 4095

/-- R5 `PCW`: width of the program counter (D4). -/
abbrev pcWidth : Nat := 16

/-- R5 `PCSTEP`: advance of the program counter after an instruction that does not redirect it. -/
abbrev pcStep : Nat := 2

/-- What a memory address that nothing has written reads as: 0, the spec's own reset content
(R19 "zeroed memory"; R53 (b) "every pair of cells the host did not poke is a HALT"). -/
abbrev unlistedByte : BitVec 8 := 0#8

end Sys2Proof.Config
end

