-- ==== Sys2Proof/Word.lean ====
section
/-! DEFINITION. The value types of the CORE (spec/00_scope.md R5, R6). All values are unsigned. -/

namespace Sys2Proof

/-- An 8-bit cell of the register file or of memory (R10, R11). -/
abbrev Byte := BitVec 8

/-- A 16-bit value: an instruction word (R34), the program counter (R12), a call-stack entry (R13). -/
abbrev Word := BitVec 16

/-- One of the four 4-bit fields of an instruction word (R35). -/
abbrev Nibble := BitVec 4

/-- A 12-bit absolute byte address of JUMP and CALL (R39). -/
abbrev Addr := BitVec 12

/-- The index of a general register, 0 to 15 (R10, R40). -/
abbrev RegIdx := Fin 16

/-- The index of a call-stack slot, 0 to 15 (R13). -/
abbrev SlotIdx := Fin 16

end Sys2Proof
end

