-- ==== Sys2Proof/Machine/State.lean ====
section
/-! DEFINITION. The architectural state of the CORE, "exactly the following six items and nothing else"
(spec/10_state.md R9), its value after reset (R19), and the reasons a step can answer no next state. -/

namespace Sys2Proof.Machine

/-- The run state (R14). Every value other than `running` is terminal. -/
inductive Status where
  /-- steps may be taken, if also `pc < 4095` -/
  | running
  /-- the word 0x0000 was executed (R53) -/
  | halted
  /-- a CALL executed with `sp = 16` (R71) -/
  | faultStackOverflow
  /-- a RET executed with `sp = 0` (R72) -/
  | faultStackUnderflow
deriving DecidableEq, Repr

/-- Memory: the cells that do not hold 0, as (address, byte) pairs in the canonical form of `Memory.wf`
(Machine/Ops.lean); an address that is not listed reads as `Config.unlistedByte`. -/
abbrev Memory := List Host.Cell

/-- The whole architectural state (R9). -/
structure State where
  /-- `x[0..15]`, the register file (R10) -/
  regs : Vector Byte 16
  /-- `mem[0..4095]`, code and data (R11) -/
  mem : Memory
  /-- the program counter: between steps, the address of the next word to fetch (R12) -/
  pc : Word
  /-- `stack[0..15]`, the call stack's slots (R13) -/
  stack : Vector Word 16
  /-- the number of active call-stack entries, 0 to 16 (R13) -/
  sp : Fin 17
  /-- the run state (R14) -/
  status : Status
deriving DecidableEq, Repr

/-- The state right after reset (R19, R85): everything zero, the engine running at address 0. -/
def State.reset : State where
  regs := Vector.replicate 16 0#8
  mem := []
  pc := 0#16
  stack := Vector.replicate 16 0#16
  sp := 0
  status := .running

/-- Why `step` answers no next state: the step guard of R48 is false, so there is no step, now or later, and the state
the step was asked of IS the final state of the run. The four constructors are the four outcomes of R91. None of them
is the fault of an instruction: a CALL or RET that faults takes a NEXT state in which `status` says so (R73).
All four are safe: the hardware takes no step there either (notes/assumptions 1). -/
inductive Fault where
  /-- raised by `step` when `status = Halted` (R91 "halted"); safe -/
  | halted
  /-- raised by `step` when `status = Running` and `pc >= 4095` (R91 "off the end", "a normal termination path, not
  an error"); safe -/
  | offTheEnd
  /-- raised by `step` when `status = FaultStackOverflow` (R91 "stack overflow"); safe -/
  | stackOverflow
  /-- raised by `step` when `status = FaultStackUnderflow` (R91 "stack underflow"); safe -/
  | stackUnderflow
deriving DecidableEq, Repr

/-- Why an instruction has no meaning in the model. -/
inductive Refusal where
  /-- raised by an arm of `exec` for an instruction not modelled yet, by its mnemonic; no arm raises it, every
  instruction has its meaning; safe -/
  | notModelled (mnemonic : String)
deriving DecidableEq, Repr

end Sys2Proof.Machine
end

