-- ==== Sys2Proof/Machine/Flags.lean ====
section
/-! DEFINITION. The results of the arithmetic and logic operations (spec/41_arith_logic.md R57). The CORE has NO flags
(spec/10_state.md R15: "no carry, zero, sign or overflow bit"), so there is no flag computation: the carry out of bit
7 is discarded and a result is the whole of what an operation computes. -/

namespace Sys2Proof.Machine

/-- Addition, "wrapping arithmetic (value mod 256)" (R57 item 2): the exact sum, narrowed to 8 bits. -/
def aluAdd (a b : Byte) : Byte := BitVec.ofNat 8 (a.toNat + b.toNat)

/-- Bitwise or on the 8 bits (R57 item 3). -/
def aluOr (a b : Byte) : Byte := a ||| b

/-- Bitwise and on the 8 bits (R57 item 3). -/
def aluAnd (a b : Byte) : Byte := a &&& b

end Sys2Proof.Machine
end

