-- ==== Sys2Proof/Syntax.lean ====
section
/-! DEFINITION. The instructions of the CORE: one constructor for each row of spec/opcode_table.json. The bits an
instruction ignores (R42, R56) are kept in its constructor, so that a word and its instruction determine each other;
no meaning reads them. -/

namespace Sys2Proof

/-- An instruction. In the three-operand forms the destination is the LAST operand, `z`; in the two MOV forms it is
the FIRST, `x` (R36). -/
inductive Instr where
  /-- HALT, the word 0x0000 (R53). -/
  | halt
  /-- NOP, the word 0x0111 (R54). -/
  | nop
  /-- ADD-REG: sources `x`, `y`, destination `z` (R58). -/
  | addReg (x y z : RegIdx)
  /-- ADD-IMM: source `x`, immediate, destination `z` (R59). -/
  | addImm (x : RegIdx) (imm : Nibble) (z : RegIdx)
  /-- OR-REG: sources `x`, `y`, destination `z` (R60). -/
  | orReg (x y z : RegIdx)
  /-- OR-IMM: source `x`, immediate, destination `z` (R61). -/
  | orImm (x : RegIdx) (imm : Nibble) (z : RegIdx)
  /-- AND-REG: sources `x`, `y`, destination `z` (R62). -/
  | andReg (x y z : RegIdx)
  /-- AND-IMM: source `x`, immediate, destination `z` (R63). -/
  | andImm (x : RegIdx) (imm : Nibble) (z : RegIdx)
  /-- MOV-REG: destination `x`, source `y`; field z is ignored (R64, R42). -/
  | movReg (x y : RegIdx) (ignored : Nibble)
  /-- MOV-IMM: destination `x`, immediate; field z is ignored (R65, R42). -/
  | movImm (x : RegIdx) (imm : Nibble) (ignored : Nibble)
  /-- JUMP to a 12-bit absolute address (R66). -/
  | jump (addr : Addr)
  /-- CALL of a 12-bit absolute address (R67). -/
  | call (addr : Addr)
  /-- RET; fields x, y, z are ignored (R68, R42). -/
  | ret (ignored : BitVec 12)
  /-- UNIMP.0: a word of opcode 0 other than HALT and NOP, with its low 12 bits (R43, R56). -/
  | unimpOp0 (payload : BitVec 12)
  /-- UNIMP.C-F: a word of opcode 12 to 15, with its low 14 bits (R43, R56). -/
  | unimpHigh (payload : BitVec 14)
deriving DecidableEq, Repr

end Sys2Proof
end

