-- ==== Sys2Proof/WellFormed.lean ====
section
/-! DEFINITION. Which terms of `Instr` stand for a word. Register numbers, immediates and addresses are in range by
their types (R40: "All 16 values are legal in every register position"); what is left to check is that an
unimplemented word of opcode 0 is neither of the two words set aside for HALT and NOP (R37, R43). -/

namespace Sys2Proof

/-- The two checks on the low 12 bits of an unimplemented opcode-0 word: it is not HALT's 0x000 and not NOP's 0x111
(R43). -/
def Instr.wellFormed : Instr → Bool
  | .unimpOp0 payload => payload != 0x000#12 && payload != 0x111#12
  | .halt | .nop | .addReg .. | .addImm .. | .orReg .. | .orImm .. | .andReg .. | .andImm .. | .movReg ..
  | .movImm .. | .jump .. | .call .. | .ret .. | .unimpHigh .. => true

end Sys2Proof
end

