-- ==== Sys2Proof/Decode.lean ====
section
/-! DEFINITION. The decoder and the encoder (spec/30_encoding.md), and the few facts about an instruction as syntax
that later files read: its destination register, its canonical spelling, its mnemonic. Every word has a meaning
(R37, R44), so the only thing the byte decoder can reject is a list of fewer than two bytes. -/

namespace Sys2Proof

/-! ## Fields of a word (R35) -/

/-- `f.op = W[15:12]`. -/
def opField (w : Word) : Nibble := w.extractLsb' 12 4

/-- `f.x = W[11:8]`. -/
def xField (w : Word) : Nibble := w.extractLsb' 8 4

/-- `f.y = W[7:4]`. -/
def yField (w : Word) : Nibble := w.extractLsb' 4 4

/-- `f.z = W[3:0]`. -/
def zField (w : Word) : Nibble := w.extractLsb' 0 4

/-- A field used as a register operand names the register of that number (R40). -/
def regOf (f : Nibble) : RegIdx := ⟨f.toNat, f.isLt⟩

/-- The three fields `x`, `y`, `z` concatenated, `W[11:0]`: the address of JUMP and CALL (R39), and the ignored bits
of RET and of an unimplemented opcode-0 word. -/
def xyzOf (w : Word) : BitVec 12 := xField w ++ yField w ++ zField w

/-! ## Decoding -/

/-- Step 3 and 4 of R37: the instruction that the opcode field selects, whatever the other fields are (R50). -/
def decodeByOp (w : Word) : Instr :=
  match (opField w).toNat with
  | 0 => .unimpOp0 (xyzOf w)
  | 1 => .addReg (regOf (xField w)) (regOf (yField w)) (regOf (zField w))
  | 2 => .addImm (regOf (xField w)) (yField w) (regOf (zField w))
  | 3 => .orReg (regOf (xField w)) (regOf (yField w)) (regOf (zField w))
  | 4 => .orImm (regOf (xField w)) (yField w) (regOf (zField w))
  | 5 => .andReg (regOf (xField w)) (regOf (yField w)) (regOf (zField w))
  | 6 => .andImm (regOf (xField w)) (yField w) (regOf (zField w))
  | 7 => .movReg (regOf (xField w)) (regOf (yField w)) (zField w)
  | 8 => .movImm (regOf (xField w)) (yField w) (zField w)
  | 9 => .jump (xyzOf w)
  | 10 => .call (xyzOf w)
  | 11 => .ret (xyzOf w)
  | _ => .unimpHigh (w.extractLsb' 0 14)

/-- Which instruction a word is, in the order of R37: HALT and NOP are tests on the whole word, everything else goes
by the opcode field. Total: all 65536 words have a meaning. -/
def decodeWord (w : Word) : Instr :=
  if w = 0x0000#16 then .halt
  else if w = 0x0111#16 then .nop
  else decodeByOp w

/-- Why the byte decoder rejects. -/
inductive DecodeError where
  /-- fewer than the two bytes of an instruction (R34); the engine never meets it, because the step guard keeps
  `pc + 1` inside memory (R27) -/
  | truncated
deriving DecidableEq, Repr

/-- The 16-bit word of two bytes, big-endian: the byte at the lower address is the high byte (R22). -/
def wordOfBytes (hi lo : Byte) : Word := hi ++ lo

/-- Decode the instruction at the head of a list of bytes; the rest of the list comes back with it. -/
def decode : List Byte → Except DecodeError (Instr × List Byte)
  | hi :: lo :: rest => .ok (decodeWord (wordOfBytes hi lo), rest)
  | _ => .error .truncated

/-! ## Encoding -/

/-- A register number as a field (R40). -/
def fieldOf (r : RegIdx) : Nibble := BitVec.ofNat 4 r.val

/-- A word from its four fields, `(op << 12) | (x << 8) | (y << 4) | z` (R35). -/
def wordOf (op x y z : Nibble) : Word := op ++ x ++ y ++ z

/-- A word from its opcode and its low 12 bits. -/
def wordOf12 (op : Nibble) (low : BitVec 12) : Word := op ++ low

/-- The word of an instruction, from the opcode map of R41 and the `match` and pattern of its row in
spec/opcode_table.json. -/
def encode : Instr → Word
  | .halt => 0x0000#16
  | .nop => 0x0111#16
  | .addReg x y z => wordOf 1#4 (fieldOf x) (fieldOf y) (fieldOf z)
  | .addImm x imm z => wordOf 2#4 (fieldOf x) imm (fieldOf z)
  | .orReg x y z => wordOf 3#4 (fieldOf x) (fieldOf y) (fieldOf z)
  | .orImm x imm z => wordOf 4#4 (fieldOf x) imm (fieldOf z)
  | .andReg x y z => wordOf 5#4 (fieldOf x) (fieldOf y) (fieldOf z)
  | .andImm x imm z => wordOf 6#4 (fieldOf x) imm (fieldOf z)
  | .movReg x y ignored => wordOf 7#4 (fieldOf x) (fieldOf y) ignored
  | .movImm x imm ignored => wordOf 8#4 (fieldOf x) imm ignored
  | .jump addr => wordOf12 9#4 addr
  | .call addr => wordOf12 10#4 addr
  | .ret ignored => wordOf12 11#4 ignored
  | .unimpOp0 payload => wordOf12 0#4 payload
  | .unimpHigh payload => (3#2 : BitVec 2) ++ payload

/-- The high byte of a word, stored at the lower address (R22, R23). -/
def highByte (w : Word) : Byte := w.extractLsb' 8 8

/-- The low byte of a word, stored at the higher address (R22, R23). -/
def lowByte (w : Word) : Byte := w.extractLsb' 0 8

/-- A word as the two bytes that memory holds, lower address first (R23, R34). -/
def bytesOfWord (w : Word) : List Byte := [highByte w, lowByte w]

/-- The instruction the decoder reads from a row's bits `w` as spec/opcode_table.json numbers them: the one 16-bit
word, laid out big-endian as memory holds it, every bit from `nbits` up being 0. -/
def decodeTableWord (nbits w : Nat) : Option Instr :=
  match decode (bytesOfWord (BitVec.ofNat 16 (w % 2 ^ nbits))) with
  | .ok (i, _) => some i
  | .error _ => none

/-! ## Facts about an instruction as syntax -/

/-- The register an instruction names as its destination (R10): field z of the arithmetic and logic instructions,
field x of the moves, none for the rest. -/
def Instr.dest? : Instr → Option RegIdx
  | .addReg _ _ z | .addImm _ _ z | .orReg _ _ z | .orImm _ _ z | .andReg _ _ z | .andImm _ _ z => some z
  | .movReg x _ _ | .movImm x _ _ => some x
  | .halt | .nop | .jump _ | .call _ | .ret _ | .unimpOp0 _ | .unimpHigh _ => none

/-- The canonical spelling of an instruction: the fields it ignores are zero (R42). Unimplemented words have no
canonical spelling of their own and stay as they are. -/
def Instr.canonical : Instr → Instr
  | .movReg x y _ => .movReg x y 0#4
  | .movImm x imm _ => .movImm x imm 0#4
  | .ret _ => .ret 0#12
  | .halt => .halt
  | .nop => .nop
  | .addReg x y z => .addReg x y z
  | .addImm x imm z => .addImm x imm z
  | .orReg x y z => .orReg x y z
  | .orImm x imm z => .orImm x imm z
  | .andReg x y z => .andReg x y z
  | .andImm x imm z => .andImm x imm z
  | .jump addr => .jump addr
  | .call addr => .call addr
  | .unimpOp0 payload => .unimpOp0 payload
  | .unimpHigh payload => .unimpHigh payload

/-- Whether an instruction has no handler (R43): it executes as a no-op and emits the diagnostic event (R56). -/
def Instr.isUnimplemented : Instr → Bool
  | .unimpOp0 _ | .unimpHigh _ => true
  | .halt | .nop | .addReg .. | .addImm .. | .orReg .. | .orImm .. | .andReg .. | .andImm .. | .movReg ..
  | .movImm .. | .jump .. | .call .. | .ret .. => false

/-- The mnemonic of an instruction's row in spec/opcode_table.json (R41). -/
def Instr.mnemonic : Instr → String
  | .halt => "HALT"
  | .nop => "NOP"
  | .addReg .. => "ADD-REG"
  | .addImm .. => "ADD-IMM"
  | .orReg .. => "OR-REG"
  | .orImm .. => "OR-IMM"
  | .andReg .. => "AND-REG"
  | .andImm .. => "AND-IMM"
  | .movReg .. => "MOV-REG"
  | .movImm .. => "MOV-IMM"
  | .jump .. => "JUMP"
  | .call .. => "CALL"
  | .ret .. => "RET"
  | .unimpOp0 .. => "UNIMP.0"
  | .unimpHigh .. => "UNIMP.C-F"

end Sys2Proof
end

