-- ==== Sys2Proof/Machine/Ops.lean ====
section
/-! DEFINITION. The named operations over memory, registers, the program counter and the call stack, raising a fault,
the step guard and the instruction fetch. The meanings of the instructions and the step are written over these. -/

namespace Sys2Proof.Machine

/-! ## Memory (spec/20_memory.md) -/

/-- The canonical form from address `lo` on: addresses strictly rising, all of cells that exist (R11), no listed byte
equal to what an unlisted address reads as. -/
def Memory.wfFrom : Nat → Memory → Bool
  | _, [] => true
  | lo, (a, v) :: rest =>
    decide (lo ≤ a) && decide (a < Config.memSize) && v != Config.unlistedByte && Memory.wfFrom (a + 1) rest

/-- The canonical form of memory: equal memories are equal lists. -/
def Memory.wf (m : Memory) : Bool := Memory.wfFrom 0 m

/-- `mem[a]` (R7, R11). Total in `a`; the engine asks only for cells that exist (R27), and the host's operation goes
through `readCell?`. -/
def Memory.read : Memory → Nat → Byte
  | [], _ => Config.unlistedByte
  | (b, v) :: rest, a => if b = a then v else Memory.read rest a

/-- An entry at the head of a list, left out when it is what an unlisted address reads as. -/
def Memory.consCell (a : Nat) (v : Byte) (m : Memory) : Memory :=
  if v = Config.unlistedByte then m else (a, v) :: m

/-- `mem[a] <- v`, keeping the canonical form (R7 `MemWrite` with `n = 1`, the only width anyone writes). -/
def Memory.write : Memory → Nat → Byte → Memory
  | [], a, v => Memory.consCell a v []
  | (b, u) :: rest, a, v =>
    if a < b then Memory.consCell a v ((b, u) :: rest)
    else if a = b then Memory.consCell a v rest
    else (b, u) :: Memory.write rest a v

/-- `mem[a]` where the cell exists (R11: `0 <= a <= 4095`), nothing where it does not. -/
def Memory.readCell? (m : Memory) (a : Nat) : Option Byte :=
  if a < Config.memSize then some (m.read a) else none

/-- `mem[a] <- v` where the cell exists, nothing where it does not. -/
def Memory.writeCell? (m : Memory) (a : Nat) (v : Byte) : Option Memory :=
  if a < Config.memSize then some (m.write a v) else none

/-- `MemRead(a, 2)`: the 16-bit value of two cells, big-endian (R7, R22). -/
def Memory.readWord (m : Memory) (a : Nat) : Word := wordOfBytes (m.read a) (m.read (a + 1))

/-- A 16-bit word placed at `a` and `a + 1`, high byte at the lower address (R23). -/
def Memory.writeWord (m : Memory) (a : Nat) (w : Word) : Memory :=
  (m.write a (highByte w)).write (a + 1) (lowByte w)

/-! ## Registers (R10) -/

/-- `x[i]`. No register is hardwired. -/
def State.readReg (s : State) (i : RegIdx) : Byte := s.regs.get i

/-- `x[i] <- v`. -/
def State.writeReg (s : State) (i : RegIdx) (v : Byte) : State := { s with regs := s.regs.set i v }

/-! ## Program counter (R51) -/

/-- `pc <- pc + 2`: the advance of an instruction that does not redirect the program counter (R51). The sum fits 16
bits whenever the step guard holds (R51, R18); notes/assumptions 3. -/
def State.advancePc (s : State) : State := { s with pc := s.pc + BitVec.ofNat 16 Config.pcStep }

/-- `pc <- t`, with no advance afterwards (R51). -/
def State.setPc (s : State) (t : Word) : State := { s with pc := t }

/-! ## Call stack (R13) -/

/-- The call-stack slot `stack[k]`. -/
def State.slot (s : State) (k : SlotIdx) : Word := s.stack.get k

/-- Push of `v` (R13): `stack[sp] <- v; sp <- sp + 1`, allowed when `sp <= 15`; nothing when the stack is full. -/
def State.push? (s : State) (v : Word) : Option State :=
  if h : s.sp.val < Config.stackDepth then
    some { s with stack := s.stack.set s.sp.val v h, sp := ⟨s.sp.val + 1, Nat.succ_lt_succ h⟩ }
  else none

/-- Pop (R13): `sp <- sp - 1`, and the popped value is `stack[sp]` at the new `sp`; the slot keeps its value. Allowed
when `sp >= 1`; nothing when the stack is empty. -/
def State.pop? (s : State) : Option (Word × State) :=
  match s.sp with
  | ⟨0, _⟩ => none
  | ⟨k + 1, h⟩ => some (s.stack.get ⟨k, Nat.lt_of_succ_lt_succ h⟩, { s with sp := ⟨k, Nat.lt_of_succ_lt h⟩ })

/-! ## Faults (spec/60_exceptions.md) -/

/-- The two conditions an instruction can raise (R70). -/
inductive Condition where
  /-- CALL with `sp = 16` (R71) -/
  | stackOverflow
  /-- RET with `sp = 0` (R72) -/
  | stackUnderflow
deriving DecidableEq, Repr

/-- The run state that a condition leaves (R70). -/
def Condition.status : Condition → Status
  | .stackOverflow => .faultStackOverflow
  | .stackUnderflow => .faultStackUnderflow

/-- `raise C(pc)` (R73), the CORE's whole trap mechanism: `status <- Fault C` and nothing else; `pc` stays at the
faulting instruction, control goes to no handler. There is no return from a fault (R79); only reset leaves it. -/
def State.raise (s : State) (c : Condition) : State := { s with status := c.status }

/-- The suggested 2-bit code of a run state (R14, D9). -/
def Status.code : Status → BitVec 2
  | .running => 0#2
  | .halted => 1#2
  | .faultStackOverflow => 2#2
  | .faultStackUnderflow => 3#2

/-! ## Step guard and fetch (spec/40_cycle_and_reserved.md) -/

/-- The step guard (R48): "status = Running and pc < 4095". -/
def State.canStep (s : State) : Bool := s.status == .running && decide (s.pc.toNat < Config.fetchLimit)

/-- The outcome of the run if it has ended in this state (R91), nothing if the step guard holds. -/
def State.stopReason (s : State) : Option Fault :=
  match s.status with
  | .halted => some .halted
  | .faultStackOverflow => some .stackOverflow
  | .faultStackUnderflow => some .stackUnderflow
  | .running => if s.pc.toNat < Config.fetchLimit then none else some .offTheEnd

/-- The instruction fetch `W = MemRead(pc, 2)` (R22), at any `pc`, even or odd (R24). Made only when the step guard
holds, so that both cells exist. It changes no state. -/
def State.fetchWord (s : State) : Word := s.mem.readWord s.pc.toNat

/-- A word placed where the next step fetches, with the step guard made true: what the host's loading of a program
(R86) does for the first instruction. `pc` and `status` change only in a state whose guard is false. -/
def State.placeWord (s : State) (w : Word) : State :=
  let p : Word := if s.pc.toNat < Config.fetchLimit then s.pc else 0#16
  { s with mem := s.mem.writeWord p.toNat w, pc := p, status := .running }

end Sys2Proof.Machine
end

