-- ==== Sys2Proof/Machine/Operands.lean ====
section
/-! DEFINITION. The operand forms (spec/30_encoding.md R36, R38 to R40): a register read, the immediate, the target
address. There is no other form: the CORE has no addressing mode (R29). -/

namespace Sys2Proof.Machine

/-- A register source operand (R40). -/
def regOperand (s : State) (r : RegIdx) : Byte := s.readReg r

/-- The immediate `imm = zext_8(f.y)`, 0 to 15 (R38, D17): zero-extended, not scaled, not shifted. -/
def immOperand (imm : Nibble) : Byte := imm.setWidth 8

/-- The target of JUMP and CALL as a program counter value: the 12-bit absolute byte address, zero-extended (R39). -/
def targetOperand (addr : Addr) : Word := addr.setWidth 16

end Sys2Proof.Machine
end

