-- ==== Sys2Proof/Machine/ArithLogic.lean ====
section
/-! DEFINITION. ADD, OR and AND in register and immediate forms (spec/41_arith_logic.md). Each writes exactly one
register, `x[f.z]`, and advances `pc` (R57 item 6); both sources are read from the state before the step (R52, R57
item 5). -/

namespace Sys2Proof.Machine

/-- The shape the six instructions share: write one register, advance `pc` (R57 item 6). -/
def State.writeResult (s : State) (z : RegIdx) (v : Byte) : State := (s.writeReg z v).advancePc

/-- ADD-REG (R58). -/
def execAddReg (x y z : RegIdx) (s : State) : Host.Outcome State Fault Refusal :=
  .next (s.writeResult z (aluAdd (regOperand s x) (regOperand s y)))

/-- ADD-IMM (R59). -/
def execAddImm (x : RegIdx) (imm : Nibble) (z : RegIdx) (s : State) : Host.Outcome State Fault Refusal :=
  .next (s.writeResult z (aluAdd (regOperand s x) (immOperand imm)))

/-- OR-REG (R60). -/
def execOrReg (x y z : RegIdx) (s : State) : Host.Outcome State Fault Refusal :=
  .next (s.writeResult z (aluOr (regOperand s x) (regOperand s y)))

/-- OR-IMM (R61). -/
def execOrImm (x : RegIdx) (imm : Nibble) (z : RegIdx) (s : State) : Host.Outcome State Fault Refusal :=
  .next (s.writeResult z (aluOr (regOperand s x) (immOperand imm)))

/-- AND-REG (R62). -/
def execAndReg (x y z : RegIdx) (s : State) : Host.Outcome State Fault Refusal :=
  .next (s.writeResult z (aluAnd (regOperand s x) (regOperand s y)))

/-- AND-IMM (R63). -/
def execAndImm (x : RegIdx) (imm : Nibble) (z : RegIdx) (s : State) : Host.Outcome State Fault Refusal :=
  .next (s.writeResult z (aluAnd (regOperand s x) (immOperand imm)))

end Sys2Proof.Machine
end

