-- ==== Sys2Proof/Machine/Control.lean ====
section
/-! DEFINITION. JUMP, CALL and RET (spec/43_control_transfer.md): the only control transfers, all unconditional, none
with a delay slot (R96). -/

namespace Sys2Proof.Machine

/-- JUMP (R66): `pc <- addr`, no advance afterwards; an odd target is accepted. -/
def execJump (addr : Addr) (s : State) : Host.Outcome State Fault Refusal :=
  .next (s.setPc (targetOperand addr))

/-- CALL (R67): push the CALL's own address, `pc <- addr`; with a full stack raise `StackOverflow` (D1) and change
nothing else. -/
def execCall (addr : Addr) (s : State) : Host.Outcome State Fault Refusal :=
  match s.push? s.pc with
  | some t => .next (t.setPc (targetOperand addr))
  | none => .next (s.raise .stackOverflow)

/-- RET (R68): pop `t`, `pc <- t + 2` (C1, D16: the popped value is the CALL's own address); with an empty stack raise
`StackUnderflow` (D2) and change nothing else. -/
def execRet (_ignored : BitVec 12) (s : State) : Host.Outcome State Fault Refusal :=
  match s.pop? with
  | some (t, s') => .next (s'.setPc (t + BitVec.ofNat 16 Config.pcStep))
  | none => .next (s.raise .stackUnderflow)

end Sys2Proof.Machine
end

