-- ==== Sys2Proof/Machine/Move.lean ====
section
/-! DEFINITION. MOV-REG and MOV-IMM (spec/42_move.md). The destination is field x; field z is ignored. -/

namespace Sys2Proof.Machine

/-- MOV-REG (R64): `x[f.x] <- x[f.y]; pc <- pc + 2`. -/
def execMovReg (x y : RegIdx) (_ignored : Nibble) (s : State) : Host.Outcome State Fault Refusal :=
  .next (s.writeReg x (regOperand s y)).advancePc

/-- MOV-IMM (R65): `x[f.x] <- zext_8(f.y); pc <- pc + 2`. -/
def execMovImm (x : RegIdx) (imm : Nibble) (_ignored : Nibble) (s : State) : Host.Outcome State Fault Refusal :=
  .next (s.writeReg x (immOperand imm)).advancePc

end Sys2Proof.Machine
end

