-- ==== Sys2Proof/Machine/System.lean ====
section
/-! DEFINITION. HALT, NOP and the unimplemented encodings (spec/40_cycle_and_reserved.md), and the diagnostic event
that an unimplemented encoding emits. -/

namespace Sys2Proof.Machine

/-- HALT (R53): `status <- Halted`; `pc` is not advanced. -/
def execHalt (s : State) : Host.Outcome State Fault Refusal :=
  .next { s with status := .halted }

/-- NOP (R54): only `pc <- pc + 2`. -/
def execNop (s : State) : Host.Outcome State Fault Refusal :=
  .next s.advancePc

/-- An unimplemented word of opcode 0 (R56): a no-op that advances `pc`; its event is `stepEvent`. -/
def execUnimpOp0 (_payload : BitVec 12) (s : State) : Host.Outcome State Fault Refusal :=
  .next s.advancePc

/-- An unimplemented word of opcode 12 to 15 (R56): a no-op that advances `pc`; its event is `stepEvent`. -/
def execUnimpHigh (_payload : BitVec 14) (s : State) : Host.Outcome State Fault Refusal :=
  .next s.advancePc

/-- The diagnostic event of R56, "an event that leaves the engine: it carries the address and the word". -/
inductive Event where
  | unimpl (pc : Word) (w : Word)
deriving DecidableEq, Repr

/-- The event emitted by the step taken in this state, if any. It is an output beside the next state, not state (R20,
R56): no step reads it. -/
def State.stepEvent (s : State) : Option Event :=
  if s.canStep && (decodeWord s.fetchWord).isUnimplemented then some (.unimpl s.pc s.fetchWord) else none

end Sys2Proof.Machine
end

