-- ==== Sys2Proof/Machine/Dispatch.lean ====
section
/-! DEFINITION. The dispatch of spec/40_cycle_and_reserved.md R50: one arm per constructor of Instr. -/

namespace Sys2Proof.Machine

/-- What an instruction does to a state (R50). -/
def exec (i : Instr) (s : State) : Host.Outcome State Fault Refusal :=
  match i with
  | .halt => Sys2Proof.Machine.execHalt s
  | .nop => Sys2Proof.Machine.execNop s
  | .addReg x y z => Sys2Proof.Machine.execAddReg x y z s
  | .addImm x imm z => Sys2Proof.Machine.execAddImm x imm z s
  | .orReg x y z => Sys2Proof.Machine.execOrReg x y z s
  | .orImm x imm z => Sys2Proof.Machine.execOrImm x imm z s
  | .andReg x y z => Sys2Proof.Machine.execAndReg x y z s
  | .andImm x imm z => Sys2Proof.Machine.execAndImm x imm z s
  | .movReg x y ign => Sys2Proof.Machine.execMovReg x y ign s
  | .movImm x imm ign => Sys2Proof.Machine.execMovImm x imm ign s
  | .jump addr => Sys2Proof.Machine.execJump addr s
  | .call addr => Sys2Proof.Machine.execCall addr s
  | .ret ign => Sys2Proof.Machine.execRet ign s
  | .unimpOp0 payload => Sys2Proof.Machine.execUnimpOp0 payload s
  | .unimpHigh payload => Sys2Proof.Machine.execUnimpHigh payload s

end Sys2Proof.Machine
end

