-- ==== Sys2Proof/Machine/Step.lean ====
section
/-! DEFINITION. One step of the CORE (spec/40_cycle_and_reserved.md R49): guard, fetch, decode, execute. -/

namespace Sys2Proof.Machine

/-- One step (R49). When the guard of R48 is false there is no step: the answer is the outcome of R91. Otherwise the
word at `pc` is fetched and decoded and its instruction executes; each meaning moves `pc` itself (R51). -/
def step (s : State) : Host.Outcome State Fault Refusal :=
  match s.stopReason with
  | some r => .fault r
  | none => exec (decodeWord s.fetchWord) s

/-- The state with a row's bits `w` (every bit from `nbits` up being 0) stored where the next step fetches. -/
def State.withFetchWord (s : State) (nbits w : Nat) : State := s.placeWord (BitVec.ofNat 16 (w % 2 ^ nbits))

end Sys2Proof.Machine
end

