-- ==== Sys2Proof/Machine/Assembly.lean ====
section
/-! DEFINITION. The assembly notation of spec/30_encoding.md R46 as structured data: a mnemonic and operands in field
order. It is the spec's own notation for its test programs and no part of the hardware (D15); nothing else imports
this file. -/

namespace Sys2Proof.Machine

/-- An operand of R46: `rN`, `#n`, an address, or the word of `.word`. -/
inductive AsmOperand where
  | reg (r : RegIdx)
  | imm (n : Nibble)
  | addr (a : Addr)
  | raw (w : Word)
deriving DecidableEq, Repr

/-- One line of assembly. -/
structure AsmLine where
  mnemonic : String
  operands : List AsmOperand
deriving DecidableEq, Repr

/-- The line that spells a word's instruction, `.word` for an unimplemented or non-canonical encoding (R46). -/
def disassemble (w : Word) : AsmLine :=
  let i := decodeWord w
  if i.isUnimplemented || encode i.canonical != w then ⟨".word", [.raw w]⟩
  else
    ⟨i.mnemonic,
      match i with
      | .addReg x y z | .orReg x y z | .andReg x y z => [.reg x, .reg y, .reg z]
      | .addImm x n z | .orImm x n z | .andImm x n z => [.reg x, .imm n, .reg z]
      | .movReg x y _ => [.reg x, .reg y]
      | .movImm x n _ => [.reg x, .imm n]
      | .jump a | .call a => [.addr a]
      | .halt | .nop | .ret _ | .unimpOp0 _ | .unimpHigh _ => []⟩

/-- The word a line of R46 stands for, nothing for a line that is none of them. -/
def assemble (l : AsmLine) : Option Word :=
  match l.mnemonic, l.operands with
  | "HALT", [] => some (encode .halt)
  | "NOP", [] => some (encode .nop)
  | "ADD-REG", [.reg x, .reg y, .reg z] => some (encode (.addReg x y z))
  | "ADD-IMM", [.reg x, .imm n, .reg z] => some (encode (.addImm x n z))
  | "OR-REG", [.reg x, .reg y, .reg z] => some (encode (.orReg x y z))
  | "OR-IMM", [.reg x, .imm n, .reg z] => some (encode (.orImm x n z))
  | "AND-REG", [.reg x, .reg y, .reg z] => some (encode (.andReg x y z))
  | "AND-IMM", [.reg x, .imm n, .reg z] => some (encode (.andImm x n z))
  | "MOV-REG", [.reg x, .reg y] => some (encode (.movReg x y 0#4))
  | "MOV-IMM", [.reg x, .imm n] => some (encode (.movImm x n 0#4))
  | "JUMP", [.addr a] => some (encode (.jump a))
  | "CALL", [.addr a] => some (encode (.call a))
  | "RET", [] => some (encode (.ret 0#12))
  | ".word", [.raw w] => some w
  | _, _ => none

end Sys2Proof.Machine
end

