-- ==== Sys2Proof/Machine/Stackless.lean ====
section
/-! DEFINITION. The variant without a call stack, as far as spec/00_scope.md R2 gives it: "the same machine with opcodes
10 (CALL) and 11 (RET) having no handler, so that they execute as unimplemented no-ops". The model proper is the
variant WITH the call stack (D23); nothing else imports this file. -/

namespace Sys2Proof.Machine

/-- Whether an instruction is one of the two that only the variant with a call stack has. -/
def usesCallStack : Instr → Bool
  | .call _ | .ret _ => true
  | .halt | .nop | .addReg .. | .addImm .. | .orReg .. | .orImm .. | .andReg .. | .andImm .. | .movReg ..
  | .movImm .. | .jump .. | .unimpOp0 .. | .unimpHigh .. => false

/-- The dispatch of the variant without a call stack (R2): CALL and RET are the unimplemented no-op of R56. -/
def execStackless (i : Instr) (s : State) : Host.Outcome State Fault Refusal :=
  if usesCallStack i then .next s.advancePc else exec i s

/-- One step of the variant without a call stack. -/
def stepStackless (s : State) : Host.Outcome State Fault Refusal :=
  match s.stopReason with
  | some r => .fault r
  | none => execStackless (decodeWord s.fetchWord) s

/-- The event of a step of the variant: CALL and RET words are reported as unimplemented too (R2, R56). -/
def State.stepEventStackless (s : State) : Option Event :=
  let i := decodeWord s.fetchWord
  if s.canStep && (i.isUnimplemented || usesCallStack i) then some (.unimpl s.pc s.fetchWord) else none

end Sys2Proof.Machine
end

