-- ==== Sys2Proof/Machine/Run.lean ====
section
/-! DEFINITION. The run loop (spec/70_reset_and_hazards.md R90, R91) and a runner under the external bound `FUEL` (R98,
D20). The CORE itself has no bound. -/

namespace Sys2Proof.Machine

/-- The state after one pass of the run loop: the next state where the guard holds; where it does not, there is no
step and the state stays as it is (R48). -/
def State.afterPass (s : State) : State :=
  match step s with
  | .next t => t
  | .fault _ => s
  | .refused _ => s

/-- The state after `n` passes of the run loop. -/
def State.after (s : State) : Nat → State
  | 0 => s
  | n + 1 => s.afterPass.after n

/-- The diagnostic events of the first `n` passes, oldest first (R56). -/
def State.eventsOf (s : State) : Nat → List Event
  | 0 => []
  | n + 1 => s.stepEvent.toList ++ s.afterPass.eventsOf n

/-- What a runner with a bound finds (R98): the run has ended with an outcome of R91, or the bound is used up, which
"is a fact about the model's runner, not an outcome of the CORE". -/
inductive RunResult where
  | ended (outcome : Fault) (final : State)
  | outOfFuel (reached : State)
deriving DecidableEq, Repr

/-- The run from `s` under the bound `fuel` (R98, D20). -/
def runFuel (fuel : Nat) (s : State) : RunResult :=
  match (s.after fuel).stopReason with
  | some r => .ended r (s.after fuel)
  | none => .outOfFuel (s.after fuel)

/-- What decides control flow (R98): "the sequence of `(pc, sp, stack)` triples", with the run state that the guard
reads beside them. -/
structure Control where
  pc : Word
  sp : Fin 17
  stack : Vector Word 16
  status : Status
deriving DecidableEq, Repr

/-- The control part of a state. -/
def State.control (s : State) : Control := ⟨s.pc, s.sp, s.stack, s.status⟩

end Sys2Proof.Machine
end

