-- ==== Sys2Proof/Machine/HostInterface.lean ====
section
/-! DEFINITION. The host interface (spec/70_reset_and_hazards.md R85 to R94): the host's operations, the three host
phases, and the engine's move while it executes. -/

namespace Sys2Proof.Machine

/-- The host phases (R87), "bookkeeping of the interface, not architectural state". -/
inductive Phase where
  /-- entered by RESET: the host may poke, read and start the run -/
  | loading
  /-- entered by RUN: the engine takes steps, the host has no operation (R94) -/
  | executing
  /-- entered by the engine stopping: the host may read, reset, and issue a RUN that does nothing -/
  | stopped
deriving DecidableEq, Repr

/-- The CORE together with the phase of its interface. -/
structure Session where
  phase : Phase
  core : State
deriving DecidableEq, Repr

/-- The host's operations (R87). Indices and addresses are unbounded numbers: the range check is the operation's. -/
inductive HostOp where
  | reset
  | pokeReg (i : Nat) (v : Byte)
  | pokeMem (a : Nat) (v : Byte)
  | run
  | readReg (i : Nat)
  | readPc
  | readStatus
  | readMem (a : Nat)
deriving DecidableEq, Repr

/-- What the host gets back. -/
inductive HostResult where
  /-- the operation was done and returns no value -/
  | done
  /-- the value of a register or a memory cell -/
  | byte (v : Byte)
  /-- the value of `pc` (READ_PC) -/
  | pc (v : Word)
  /-- the run state (READ_STATUS) -/
  | status (v : Status)
  /-- an index above 15 or an address above 4095 (R74); nothing changed -/
  | outOfRange
  /-- the phase does not allow the operation (R87, D11); nothing changed -/
  | notAllowed
deriving DecidableEq, Repr

/-- The session right after reset: phase Loading, the state of R19 (R85). -/
def Session.reset : Session := ⟨.loading, State.reset⟩

/-- Whether a phase allows an operation: the table of R87. -/
def HostOp.allowedIn (op : HostOp) : Phase → Bool
  | .loading => true
  | .executing => false
  | .stopped =>
    match op with
    | .pokeReg _ _ | .pokeMem _ _ => false
    | .reset | .run | .readReg _ | .readPc | .readStatus | .readMem _ => true

/-- `POKE_REG(i, v)` (R88). -/
def Session.pokeReg (c : Session) (i : Nat) (v : Byte) : HostResult × Session :=
  if h : i < Config.numRegs then (.done, { c with core := c.core.writeReg ⟨i, h⟩ v }) else (.outOfRange, c)

/-- `POKE_MEM(a, v)` (R89). -/
def Session.pokeMem (c : Session) (a : Nat) (v : Byte) : HostResult × Session :=
  match c.core.mem.writeCell? a v with
  | some m => (.done, { c with core := { c.core with mem := m } })
  | none => (.outOfRange, c)

/-- `RUN` (R90): from Loading the phase becomes Executing; from Stopped nothing happens. -/
def Session.run (c : Session) : HostResult × Session :=
  match c.phase with
  | .loading => (.done, { c with phase := .executing })
  | .executing => (.notAllowed, c)
  | .stopped => (.done, c)

/-- `READ_REG(i)` (R92). -/
def Session.readReg (c : Session) (i : Nat) : HostResult × Session :=
  if h : i < Config.numRegs then (.byte (c.core.readReg ⟨i, h⟩), c) else (.outOfRange, c)

/-- `READ_MEM(a)` (R93). -/
def Session.readMem (c : Session) (a : Nat) : HostResult × Session :=
  match c.core.mem.readCell? a with
  | some v => (.byte v, c)
  | none => (.outOfRange, c)

/-- One host operation: refused, with nothing changed, where the phase does not allow it (R87, R94); else its
effect. -/
def Session.host (c : Session) (op : HostOp) : HostResult × Session :=
  if op.allowedIn c.phase then
    match op with
    | .reset => (.done, Session.reset)
    | .pokeReg i v => c.pokeReg i v
    | .pokeMem a v => c.pokeMem a v
    | .run => c.run
    | .readReg i => c.readReg i
    | .readPc => (.pc c.core.pc, c)
    | .readStatus => (.status c.core.status, c)
    | .readMem a => c.readMem a
  else (.notAllowed, c)

/-- The engine's move (R90): while Executing, one step, with the event it emits (R56); when the guard is false the
phase becomes Stopped. In the other phases the engine does not move. -/
def Session.tick (c : Session) : Session × Option Event :=
  match c.phase with
  | .executing =>
    match step c.core with
    | .next t => (⟨.executing, t⟩, c.core.stepEvent)
    | .fault _ => (⟨.stopped, c.core⟩, none)
    | .refused _ => (⟨.stopped, c.core⟩, none)
  | .loading => (c, none)
  | .stopped => (c, none)

/-- `fuel` moves of the engine, with no host operation between them (R94, R98). -/
def Session.ticks (c : Session) : Nat → Session
  | 0 => c
  | fuel + 1 => c.tick.1.ticks fuel

/-- What the host does to a session over a whole exchange: operations one after another. -/
def Session.hostAll (c : Session) : List HostOp → Session
  | [] => c
  | op :: ops => (c.host op).2.hostAll ops

end Sys2Proof.Machine
end

