-- ==== Sys2Proof/Safety.lean ====
section
/-! DEFINITION. The terms claims are made in: what a step leaves unchanged, the invariants of spec/10_state.md R18 and
of spec/70_reset_and_hazards.md R91, the sessions a host can reach, and what counts as a safe run. -/

namespace Sys2Proof.Machine

/-! ## What a step leaves unchanged -/

/-- Every register but `r` reads as before. -/
abbrev KeepsRegsExcept (r : RegIdx) (s t : State) : Prop := ∀ j : RegIdx, j ≠ r → t.readReg j = s.readReg j

/-- Every register reads as before. -/
abbrev KeepsRegs (s t : State) : Prop := ∀ j : RegIdx, t.readReg j = s.readReg j

/-- Every byte of memory reads as before. -/
abbrev KeepsMem (s t : State) : Prop := ∀ a : Nat, t.mem.read a = s.mem.read a

/-- Every call-stack slot and the stack pointer are as before. -/
abbrev KeepsStack (s t : State) : Prop := (∀ k : SlotIdx, t.slot k = s.slot k) ∧ t.sp = s.sp

/-- Nothing but register `r` and the program counter may differ. -/
abbrev ChangesOnlyRegAndPc (r : RegIdx) (s t : State) : Prop :=
  KeepsRegsExcept r s t ∧ KeepsMem s t ∧ KeepsStack s t ∧ t.status = s.status

/-- Nothing but the program counter may differ. -/
abbrev ChangesOnlyPc (s t : State) : Prop :=
  KeepsRegs s t ∧ KeepsMem s t ∧ KeepsStack s t ∧ t.status = s.status

/-- Nothing but the run state may differ (R73). -/
abbrev ChangesOnlyStatus (s t : State) : Prop :=
  KeepsRegs s t ∧ KeepsMem s t ∧ KeepsStack s t ∧ t.pc = s.pc

/-! ## Invariants -/

/-- Every active call-stack entry is the address of an executed CALL, at most 4094 (R18 item 3). -/
abbrev State.ActiveEntriesBounded (s : State) : Prop :=
  ∀ k : SlotIdx, k.val < s.sp.val → (s.slot k).toNat ≤ 4094

/-- The invariant of R18: `pc` at most 4096 (item 1), the active entries at most 4094 (item 3), and memory in its
canonical form, every listed cell one that exists. Items 2, 4 and 5 (`sp` at most 16, 8-bit cells, indices 0 to 15)
hold of every `State` by its types; item 6 follows from the step guard. -/
abbrev State.Inv (s : State) : Prop :=
  s.pc.toNat ≤ 4096 ∧ s.ActiveEntriesBounded ∧ s.mem.wf = true

/-- What a terminal run state says about where the engine stopped (R91): `Halted` at a 0x0000 word, a stack overflow
at a CALL with a full stack, a stack underflow at a RET with an empty one. -/
abbrev State.StopRecorded (s : State) : Prop :=
  (s.status = .halted → s.pc.toNat ≤ 4094 ∧ s.fetchWord = 0x0000#16) ∧
  (s.status = .faultStackOverflow → s.pc.toNat ≤ 4094 ∧ (opField s.fetchWord).toNat = 10 ∧ s.sp.val = 16) ∧
  (s.status = .faultStackUnderflow → s.pc.toNat ≤ 4094 ∧ (opField s.fetchWord).toNat = 11 ∧ s.sp.val = 0)

/-- What the phase says of the core: nothing has run yet while Loading (R86, R90: the run starts at `pc = 0`), and no
step can be taken once Stopped (R87, R91). -/
abbrev Session.PhaseAgrees (c : Session) : Prop :=
  (c.phase = .loading → c.core.pc = 0#16 ∧ c.core.sp = 0 ∧ c.core.status = .running ∧
    ∀ k : SlotIdx, c.core.slot k = 0#16) ∧
  (c.phase = .stopped → c.core.canStep = false)

/-- The invariant of a session: R18, R91 and the phase. -/
abbrev Session.Inv (c : Session) : Prop := c.core.Inv ∧ c.core.StopRecorded ∧ c.PhaseAgrees

/-- The sessions that a host and the engine can bring about: reset, any host operations, any moves of the engine. -/
inductive Session.Reachable : Session → Prop
  | reset : Session.Reachable Session.reset
  | host (c : Session) (op : HostOp) : Session.Reachable c → Session.Reachable (c.host op).2
  | tick (c : Session) : Session.Reachable c → Session.Reachable c.tick.1

/-! ## Runs -/

/-- The run from `s` ends: some number of passes reaches a state whose guard is false (R91). -/
def State.RunEnds (s : State) : Prop := ∃ n, (s.after n).canStep = false

/-- A safe run: it never reaches one of the two fault states (R71, R72). -/
def State.FaultFree (s : State) : Prop :=
  ∀ n, (s.after n).status ≠ .faultStackOverflow ∧ (s.after n).status ≠ .faultStackUnderflow

/-- Two states with the same memory and the same control part: they may differ in the sixteen registers only. -/
abbrev State.AgreeButRegs (s t : State) : Prop := s.mem = t.mem ∧ s.control = t.control

end Sys2Proof.Machine
end

