-- ==== Sys2Proof/Certificates/Slice0/Obligations.lean ====
section
/-! DEFINITION. The statements for the provers. Words are written as numbers (`0x1000 + 256 * x + 16 * y + z`), so that a
statement does not lean on the encoder; results are said as numbers, bits or reads, not as the meanings compute them.
"Derived" marks a statement that rests on a decision (D<n>), a conflict's resolution (C<n>) or a derivation that the
spec marks as its own. -/

open Sys2Proof Sys2Proof.Machine

/-! ## What each instruction does -/

/-- R53. Only the word 0x0000 is HALT; HALT sets `status` and changes nothing else, `pc` included; no other word
brings the engine to `Halted`; memory that nothing has written is HALT words. -/
def Obligations.HaltStopsWithoutAdvancing : Prop :=
  (∀ w : Word, decodeWord w = .halt ↔ w = 0x0000#16) ∧
  (∀ s : State, ∃ t, exec .halt s = .next t ∧ t.status = .halted ∧ ChangesOnlyStatus s t) ∧
  (∀ s t : State, step s = .next t → t.status = .halted → s.fetchWord = 0x0000#16) ∧
  (∀ s : State, s.mem = State.reset.mem → s.fetchWord = 0x0000#16)

/-- R54. Only the word 0x0111 is NOP; NOP advances `pc` by 2 and changes nothing else, emits no event, and at 4094
leaves `pc = 4096`, off the end. -/
def Obligations.NopOnlyAdvances : Prop :=
  (∀ w : Word, decodeWord w = .nop ↔ w = 0x0111#16) ∧
  (∀ s : State, ∃ t, exec .nop s = .next t ∧ t.pc = s.pc + 2#16 ∧ ChangesOnlyPc s t ∧
    (s.status = .running → s.pc = 4094#16 → t.pc = 4096#16 ∧ t.stopReason = some .offTheEnd)) ∧
  (∀ s : State, s.fetchWord = 0x0111#16 → s.stepEvent = none)

/-- R58. `0x1XYZ` is ADD-REG; it writes `(x[x] + x[y]) mod 256` to `x[z]`, advances, and changes nothing else,
whichever of the three registers coincide. -/
def Obligations.AddRegWrapsIntoDestination : Prop :=
  ∀ x y z : RegIdx,
    decodeWord (BitVec.ofNat 16 (0x1000 + 256 * x.val + 16 * y.val + z.val)) = .addReg x y z ∧
    ∀ s : State, ∃ t, exec (.addReg x y z) s = .next t ∧
      (t.readReg z).toNat = ((s.readReg x).toNat + (s.readReg y).toNat) % 256 ∧
      t.pc = s.pc + 2#16 ∧ ChangesOnlyRegAndPc z s t

/-- R59, derived: the immediate's width is D17 (C2). `0x2XnZ` is ADD-IMM; it writes `(x[x] + n) mod 256` to `x[z]`,
advances, and changes nothing else. -/
def Obligations.AddImmWrapsIntoDestination : Prop :=
  ∀ (x : RegIdx) (n : Nibble) (z : RegIdx),
    decodeWord (BitVec.ofNat 16 (0x2000 + 256 * x.val + 16 * n.toNat + z.val)) = .addImm x n z ∧
    ∀ s : State, ∃ t, exec (.addImm x n z) s = .next t ∧
      (t.readReg z).toNat = ((s.readReg x).toNat + n.toNat) % 256 ∧
      t.pc = s.pc + 2#16 ∧ ChangesOnlyRegAndPc z s t

/-- R60. `0x3XYZ` is OR-REG; bit `k` of `x[z]` becomes the or of bit `k` of the sources. -/
def Obligations.OrRegIsBitwise : Prop :=
  ∀ x y z : RegIdx,
    decodeWord (BitVec.ofNat 16 (0x3000 + 256 * x.val + 16 * y.val + z.val)) = .orReg x y z ∧
    ∀ s : State, ∃ t, exec (.orReg x y z) s = .next t ∧
      (∀ k : Nat, (t.readReg z).getLsbD k = ((s.readReg x).getLsbD k || (s.readReg y).getLsbD k)) ∧
      t.pc = s.pc + 2#16 ∧ ChangesOnlyRegAndPc z s t

/-- R61, derived (D17). `0x4XnZ` is OR-IMM; the low nibble is or-ed with the immediate, the high nibble is the
source's. -/
def Obligations.OrImmKeepsHighNibble : Prop :=
  ∀ (x : RegIdx) (n : Nibble) (z : RegIdx),
    decodeWord (BitVec.ofNat 16 (0x4000 + 256 * x.val + 16 * n.toNat + z.val)) = .orImm x n z ∧
    ∀ s : State, ∃ t, exec (.orImm x n z) s = .next t ∧
      (∀ k : Nat, k < 4 → (t.readReg z).getLsbD k = ((s.readReg x).getLsbD k || n.getLsbD k)) ∧
      (∀ k : Nat, 4 ≤ k → (t.readReg z).getLsbD k = (s.readReg x).getLsbD k) ∧
      t.pc = s.pc + 2#16 ∧ ChangesOnlyRegAndPc z s t

/-- R62. `0x5XYZ` is AND-REG; bit `k` of `x[z]` becomes the and of bit `k` of the sources. -/
def Obligations.AndRegIsBitwise : Prop :=
  ∀ x y z : RegIdx,
    decodeWord (BitVec.ofNat 16 (0x5000 + 256 * x.val + 16 * y.val + z.val)) = .andReg x y z ∧
    ∀ s : State, ∃ t, exec (.andReg x y z) s = .next t ∧
      (∀ k : Nat, (t.readReg z).getLsbD k = ((s.readReg x).getLsbD k && (s.readReg y).getLsbD k)) ∧
      t.pc = s.pc + 2#16 ∧ ChangesOnlyRegAndPc z s t

/-- R63, derived (D17). `0x6XnZ` is AND-IMM; the low nibble is and-ed with the immediate, the result is at most 15. -/
def Obligations.AndImmClearsHighNibble : Prop :=
  ∀ (x : RegIdx) (n : Nibble) (z : RegIdx),
    decodeWord (BitVec.ofNat 16 (0x6000 + 256 * x.val + 16 * n.toNat + z.val)) = .andImm x n z ∧
    ∀ s : State, ∃ t, exec (.andImm x n z) s = .next t ∧
      (∀ k : Nat, k < 4 → (t.readReg z).getLsbD k = ((s.readReg x).getLsbD k && n.getLsbD k)) ∧
      (t.readReg z).toNat ≤ 15 ∧
      t.pc = s.pc + 2#16 ∧ ChangesOnlyRegAndPc z s t

/-- R64, derived: that field z is ignored is D7. `0x7XY-` is MOV-REG for every field z; `x[x]` becomes `x[y]`; doing it
twice leaves the registers of doing it once. -/
def Obligations.MovRegCopiesIntoFirstOperand : Prop :=
  ∀ (x y : RegIdx) (g : Nibble),
    decodeWord (BitVec.ofNat 16 (0x7000 + 256 * x.val + 16 * y.val + g.toNat)) = .movReg x y g ∧
    ∀ s : State, ∃ t, exec (.movReg x y g) s = .next t ∧
      t.readReg x = s.readReg y ∧ t.pc = s.pc + 2#16 ∧ ChangesOnlyRegAndPc x s t ∧
      ∀ u : State, exec (.movReg x y g) t = .next u → KeepsRegs t u

/-- R65, derived (D7, D17). `0x8Xn-` is MOV-IMM for every field z; `x[x]` becomes the number `n`, 0 to 15; doing it
twice leaves the registers of doing it once. -/
def Obligations.MovImmLoadsFourBits : Prop :=
  ∀ (x : RegIdx) (n g : Nibble),
    decodeWord (BitVec.ofNat 16 (0x8000 + 256 * x.val + 16 * n.toNat + g.toNat)) = .movImm x n g ∧
    ∀ s : State, ∃ t, exec (.movImm x n g) s = .next t ∧
      (t.readReg x).toNat = n.toNat ∧ t.pc = s.pc + 2#16 ∧ ChangesOnlyRegAndPc x s t ∧
      ∀ u : State, exec (.movImm x n g) t = .next u → KeepsRegs t u

/-- R66. `0x9aaa` is JUMP; `pc` becomes exactly the 12-bit address, odd or even, and nothing else changes. A jump to its
own address leaves the state as it is; a jump to 4095 ends the run off the end. -/
def Obligations.JumpSetsPcToTarget : Prop :=
  ∀ a : Addr,
    decodeWord (BitVec.ofNat 16 (0x9000 + a.toNat)) = .jump a ∧
    ∀ s : State, ∃ t, exec (.jump a) s = .next t ∧ t.pc.toNat = a.toNat ∧ ChangesOnlyPc s t ∧
      (s.pc.toNat = a.toNat → t = s) ∧
      (s.status = .running → a.toNat = 4095 → t.stopReason = some .offTheEnd)

/-- R67, derived: the overflow policy is D1, D3. `0xAaaa` is CALL. With room on the stack it pushes its own address and
sets `pc` to the target; with a full stack it sets `status` and changes nothing else. -/
def Obligations.CallPushesOwnAddressOrOverflows : Prop :=
  ∀ a : Addr,
    decodeWord (BitVec.ofNat 16 (0xA000 + a.toNat)) = .call a ∧
    (∀ s : State, s.sp.val ≤ 15 → ∃ t, exec (.call a) s = .next t ∧
      (∀ k : SlotIdx, t.slot k = if k.val = s.sp.val then s.pc else s.slot k) ∧
      t.sp.val = s.sp.val + 1 ∧ t.pc.toNat = a.toNat ∧
      KeepsRegs s t ∧ KeepsMem s t ∧ t.status = s.status) ∧
    (∀ s : State, s.sp.val = 16 → ∃ t, exec (.call a) s = .next t ∧
      t.status = .faultStackOverflow ∧ ChangesOnlyStatus s t)

/-- R68, derived: the `+ 2` is C1, D16, the underflow policy D2, D3. Every word `0xB---` is RET. With an entry on the
stack it uncounts the top entry, leaves every slot's value, and continues 2 after the popped address; with an empty
stack it sets `status` and changes nothing else. -/
def Obligations.RetResumesAfterCallOrUnderflows : Prop :=
  ∀ g : BitVec 12,
    decodeWord (BitVec.ofNat 16 (0xB000 + g.toNat)) = .ret g ∧
    (∀ s : State, 1 ≤ s.sp.val → ∃ t, exec (.ret g) s = .next t ∧
      t.sp.val + 1 = s.sp.val ∧
      (∀ k : SlotIdx, k.val + 1 = s.sp.val → t.pc = s.slot k + 2#16) ∧
      (∀ k : SlotIdx, t.slot k = s.slot k) ∧
      KeepsRegs s t ∧ KeepsMem s t ∧ t.status = s.status) ∧
    (∀ s : State, s.sp.val = 0 → ∃ t, exec (.ret g) s = .next t ∧
      t.status = .faultStackUnderflow ∧ ChangesOnlyStatus s t)

/-- R43, R56, derived (D6). Which words have no handler, and that each executes as a no-op that advances `pc`. -/
def Obligations.UnimplementedWordsAdvance : Prop :=
  (∀ w : Word, (decodeWord w).isUnimplemented = true ↔
    (w.toNat < 0x1000 ∧ w ≠ 0x0000#16 ∧ w ≠ 0x0111#16) ∨ 0xC000 ≤ w.toNat) ∧
  (∀ (p : BitVec 12) (s : State), ∃ t, exec (.unimpOp0 p) s = .next t ∧ t.pc = s.pc + 2#16 ∧ ChangesOnlyPc s t) ∧
  (∀ (p : BitVec 14) (s : State), ∃ t, exec (.unimpHigh p) s = .next t ∧ t.pc = s.pc + 2#16 ∧ ChangesOnlyPc s t)

/-- R56, derived (D6, D10; notes/assumptions 9). A step emits the event exactly when it is taken and its word has no
handler; the event carries the address and the word. R56 and D10 make the event optional: that it is always emitted, the
"if" half of this equivalence, is the model's DESIGN CHOICE of notes/assumptions 9. -/
def Obligations.EventExactlyForUnimplementedWords : Prop :=
  ∀ (s : State) (e : Event), s.stepEvent = some e ↔
    (s.status = .running ∧ s.pc.toNat < 4095) ∧
    ((s.fetchWord.toNat < 0x1000 ∧ s.fetchWord ≠ 0x0000#16 ∧ s.fetchWord ≠ 0x0111#16) ∨ 0xC000 ≤ s.fetchWord.toNat) ∧
    e = .unimpl s.pc s.fetchWord

/-! ## Encoding -/

/-- R35. The four fields of a word by the source's shifts and masks, and the word from its fields. -/
def Obligations.FieldsAreTheFourNibbles : Prop :=
  ∀ w : Word,
    (opField w).toNat = (w.toNat >>> 12) &&& 0xF ∧
    (xField w).toNat = (w.toNat >>> 8) &&& 0xF ∧
    (yField w).toNat = (w.toNat >>> 4) &&& 0xF ∧
    (zField w).toNat = w.toNat &&& 0xF ∧
    w.toNat = ((opField w).toNat <<< 12) ||| ((xField w).toNat <<< 8) ||| ((yField w).toNat <<< 4) ||| (zField w).toNat

/-- R34. Whatever two bytes come first, the decoder takes exactly these two, high byte at the lower address. -/
def Obligations.DecoderTakesTwoBytesBigEndian : Prop :=
  ∀ (hi lo : Byte) (rest : List Byte), ∃ w : Word,
    w.toNat = 256 * hi.toNat + lo.toNat ∧ decode (hi :: lo :: rest) = .ok (decodeWord w, rest)

/-- R37, derived (its last line rests on D6). Every word falls in exactly one row of the opcode table, in the order of
R37. -/
def Obligations.EveryWordHasItsRow : Prop :=
  ∀ w : Word, (decodeWord w).mnemonic =
    if w = 0x0000#16 then "HALT"
    else if w = 0x0111#16 then "NOP"
    else if w.toNat < 0x1000 then "UNIMP.0"
    else if w.toNat < 0x2000 then "ADD-REG"
    else if w.toNat < 0x3000 then "ADD-IMM"
    else if w.toNat < 0x4000 then "OR-REG"
    else if w.toNat < 0x5000 then "OR-IMM"
    else if w.toNat < 0x6000 then "AND-REG"
    else if w.toNat < 0x7000 then "AND-IMM"
    else if w.toNat < 0x8000 then "MOV-REG"
    else if w.toNat < 0x9000 then "MOV-IMM"
    else if w.toNat < 0xA000 then "JUMP"
    else if w.toNat < 0xB000 then "CALL"
    else if w.toNat < 0xC000 then "RET"
    else "UNIMP.C-F"

/-- Sample words of spec/95_test_vectors.md (T-DEC-6, 7, 8, 9, 10, 11, 12, 13), decoded. -/
def Obligations.SampleWordsDecode : Prop :=
  decodeWord 0x1ABC#16 = .addReg 10 11 12 ∧ decodeWord 0x2F0F#16 = .addImm 15 0#4 15 ∧
  decodeWord 0x60F2#16 = .andImm 0 15#4 2 ∧ decodeWord 0x731F#16 = .movReg 3 1 15#4 ∧
  decodeWord 0x812F#16 = .movImm 1 2#4 15#4 ∧ decodeWord 0x9FFF#16 = .jump 0xFFF#12 ∧
  decodeWord 0xA100#16 = .call 0x100#12 ∧ decodeWord 0xBABC#16 = .ret 0xABC#12

/-- Decoding the word of a well-formed instruction gives the instruction back, with every operand at every value and
every ignored bit; so does decoding its two bytes. -/
def Obligations.DecodeInvertsEncode : Prop :=
  ∀ i : Instr, i.wellFormed = true →
    decodeWord (encode i) = i ∧ decode (bytesOfWord (encode i)) = .ok (i, [])

/-- Every word decodes to a well-formed instruction whose encoding is the word (R37: the decoder is total). -/
def Obligations.EncodeInvertsDecode : Prop :=
  ∀ w : Word, (decodeWord w).wellFormed = true ∧ encode (decodeWord w) = w

/-- R42, derived (D7). Words that differ only in the bits a MOV or RET ignores do the same in every state. -/
def Obligations.IgnoredFieldsHaveNoEffect : Prop :=
  (∀ (w w' : Word) (s : State), (w.toNat / 4096 = 7 ∨ w.toNat / 4096 = 8) → w.toNat / 16 = w'.toNat / 16 →
    exec (decodeWord w) s = exec (decodeWord w') s) ∧
  (∀ (w w' : Word) (s : State), w.toNat / 4096 = 11 → w'.toNat / 4096 = 11 →
    exec (decodeWord w) s = exec (decodeWord w') s)

/-- R46, derived (D15: the notation is the spec's own). The assembly line that spells a word assembles to the word. -/
def Obligations.AssemblyRoundTrip : Prop :=
  ∀ w : Word, assemble (disassemble w) = some w

/-! ## The step -/

/-- R22. The word fetched, at any `pc`, even or odd, is the big-endian pair of bytes at `pc` and `pc + 1`; its four
fields are the four nibbles; both cells exist whenever the guard holds. -/
def Obligations.FetchIsBigEndian : Prop :=
  ∀ s : State,
    s.fetchWord.toNat = 256 * (s.mem.read s.pc.toNat).toNat + (s.mem.read (s.pc.toNat + 1)).toNat ∧
    (opField s.fetchWord).toNat = (s.mem.read s.pc.toNat).toNat / 16 ∧
    (xField s.fetchWord).toNat = (s.mem.read s.pc.toNat).toNat % 16 ∧
    (yField s.fetchWord).toNat = (s.mem.read (s.pc.toNat + 1)).toNat / 16 ∧
    (zField s.fetchWord).toNat = (s.mem.read (s.pc.toNat + 1)).toNat % 16 ∧
    (s.canStep = true → s.pc.toNat + 1 ≤ 4095)

/-- A step runs the decoded instruction: where the guard holds and the two bytes at `pc` decode to `i`, the step is the
execution of `i` and nothing else (the meaning itself moves `pc`). -/
def Obligations.StepRunsTheDecodedInstruction : Prop :=
  ∀ (s : State) (i : Instr), s.status = .running → s.pc.toNat < 4095 →
    decode [s.mem.read s.pc.toNat, s.mem.read (s.pc.toNat + 1)] = .ok (i, []) → step s = exec i s

/-- R48. A step is taken if and only if `status = Running` and `pc < 4095`; where the guard is false there is no step,
now or after any number of passes. -/
def Obligations.StepExistsExactlyUnderTheGuard : Prop :=
  ∀ s : State,
    ((∃ t, step s = .next t) ↔ (s.status = .running ∧ s.pc.toNat < 4095)) ∧
    (¬ (s.status = .running ∧ s.pc.toNat < 4095) → ∀ n, s.after n = s ∧ ∀ t, step (s.after n) ≠ .next t)

/-- R91, derived (D9, D19; notes/assumptions 1). Where there is no step, the answer names the outcome of the run by
`status` and `pc`. -/
def Obligations.StoppedEngineNamesItsOutcome : Prop :=
  ∀ s : State,
    (s.status = .halted → step s = .fault .halted) ∧
    (s.status = .running → 4095 ≤ s.pc.toNat → step s = .fault .offTheEnd) ∧
    (s.status = .faultStackOverflow → step s = .fault .stackOverflow) ∧
    (s.status = .faultStackUnderflow → step s = .fault .stackUnderflow)

/-- R51, derived (C1, D3). Where `pc` goes, by the fetched word alone: it stays for HALT and for a fault, becomes the
target for JUMP and CALL, the popped value plus 2 for RET, and advances by 2, without wrapping, for every other
word. -/
def Obligations.PcMovesByTheFetchedWord : Prop :=
  ∀ s t : State, s.ActiveEntriesBounded → step s = .next t →
    (s.fetchWord = 0x0000#16 → t.pc = s.pc) ∧
    (s.fetchWord.toNat / 4096 = 9 → t.pc.toNat = s.fetchWord.toNat % 4096) ∧
    (s.fetchWord.toNat / 4096 = 10 → s.sp.val ≤ 15 → t.pc.toNat = s.fetchWord.toNat % 4096) ∧
    (s.fetchWord.toNat / 4096 = 10 → s.sp.val = 16 → t.pc = s.pc) ∧
    (s.fetchWord.toNat / 4096 = 11 → ∀ k : SlotIdx, k.val + 1 = s.sp.val → t.pc.toNat = (s.slot k).toNat + 2) ∧
    (s.fetchWord.toNat / 4096 = 11 → s.sp.val = 0 → t.pc = s.pc) ∧
    (s.fetchWord ≠ 0x0000#16 → s.fetchWord.toNat / 4096 ≠ 9 → s.fetchWord.toNat / 4096 ≠ 10 →
      s.fetchWord.toNat / 4096 ≠ 11 → t.pc.toNat = s.pc.toNat + 2)

/-- R16, derived (D1 to D3, D9). What `status` is after a step: `Halted` after the word 0x0000, a fault after a CALL
with a full stack or a RET with an empty one, `Running` after everything else. -/
def Obligations.StatusAfterAStep : Prop :=
  ∀ s t : State, step s = .next t → t.status =
    if s.fetchWord = 0x0000#16 then .halted
    else if s.fetchWord.toNat / 4096 = 10 ∧ s.sp.val = 16 then .faultStackOverflow
    else if s.fetchWord.toNat / 4096 = 11 ∧ s.sp.val = 0 then .faultStackUnderflow
    else .running

/-- R10, derived (its op-0 words rest on D6). A step changes no register but the one its instruction names as
destination: field z for opcodes 1 to 6, field x for opcodes 7 and 8, none for every other word. -/
def Obligations.RegistersChangeOnlyAtTheDestination : Prop :=
  ∀ s t : State, step s = .next t → ∀ j : RegIdx,
    ¬ (1 ≤ s.fetchWord.toNat / 4096 ∧ s.fetchWord.toNat / 4096 ≤ 6 ∧ j.val = s.fetchWord.toNat % 16) →
    ¬ (7 ≤ s.fetchWord.toNat / 4096 ∧ s.fetchWord.toNat / 4096 ≤ 8 ∧ j.val = s.fetchWord.toNat / 256 % 16) →
    t.readReg j = s.readReg j

/-- R13, derived. A step whose opcode is neither CALL's nor RET's leaves every slot and the stack pointer; a CALL
changes no slot but the one its `sp` indexes, a RET no slot at all. -/
def Obligations.OnlyCallAndRetTouchTheStack : Prop :=
  ∀ s t : State, step s = .next t →
    (s.fetchWord.toNat / 4096 ≠ 10 → s.fetchWord.toNat / 4096 ≠ 11 → KeepsStack s t) ∧
    (∀ k : SlotIdx, k.val ≠ s.sp.val ∨ s.fetchWord.toNat / 4096 ≠ 10 → t.slot k = s.slot k)

/-- R25, derived. A step reads the two bytes at `pc` and no other byte of memory: with any other memory that agrees on
those two, the step does the same, and leaves that memory as it is. -/
def Obligations.StepReadsOnlyTheFetchedBytes : Prop :=
  ∀ (s t : State) (m : Memory), m.read s.pc.toNat = s.mem.read s.pc.toNat →
    m.read (s.pc.toNat + 1) = s.mem.read (s.pc.toNat + 1) → step s = .next t →
    step { s with mem := m } = .next { t with mem := m }

/-- R71 to R73, R78, R79, derived (D1 to D3; notes/assumptions 1). A fault is precise and sticky: the step changes
`status` alone, to the condition's value, and from then on there is no step. That the stopped engine answers a fault
named `stackOverflow` or `stackUnderflow` is the model's DESIGN CHOICE of notes/assumptions 1. -/
def Obligations.StackFaultIsPreciseAndSticky : Prop :=
  ∀ s : State, s.status = .running → s.pc.toNat < 4095 →
    (s.fetchWord.toNat / 4096 = 10 → s.sp.val = 16 → ∃ t, step s = .next t ∧ t.status = .faultStackOverflow ∧
      ChangesOnlyStatus s t ∧ ∀ n, t.after n = t ∧ step (t.after n) = .fault .stackOverflow) ∧
    (s.fetchWord.toNat / 4096 = 11 → s.sp.val = 0 → ∃ t, step s = .next t ∧ t.status = .faultStackUnderflow ∧
      ChangesOnlyStatus s t ∧ ∀ n, t.after n = t ∧ step (t.after n) = .fault .stackUnderflow)

/-! ## Reset and invariants -/

/-- R19, derived (the slots' zero is D8). The state after reset. -/
def Obligations.ResetStateIsZeroedAndRunning : Prop :=
  (∀ i : RegIdx, State.reset.readReg i = 0#8) ∧ (∀ a : Nat, State.reset.mem.read a = 0#8) ∧
  State.reset.pc = 0#16 ∧ State.reset.sp.val = 0 ∧ (∀ k : SlotIdx, State.reset.slot k = 0#16) ∧
  State.reset.status = .running

/-- The invariant of R18 holds at reset, and so does what a session claims of its phase. -/
def Obligations.InvariantHoldsAtReset : Prop :=
  State.reset.Inv ∧ State.reset.StopRecorded ∧ Session.reset.Inv

/-- R18, derived. Every step keeps the invariant: `pc` at most 4096, active entries at most 4094, canonical memory. -/
def Obligations.StepKeepsInvariant : Prop :=
  ∀ s t : State, s.Inv → step s = .next t → t.Inv

/-- R91, derived. A step that stops the engine leaves the record of its cause: `Halted` at a 0x0000 word, a stack
overflow at a CALL with `sp = 16`, a stack underflow at a RET with `sp = 0`; whatever the state before. -/
def Obligations.StepLeavesStopRecord : Prop :=
  ∀ s t : State, step s = .next t → t.StopRecorded

/-- R18, R91, derived (D11 for the phases). Whatever the host does and however long the engine runs, every session that
can come about meets the invariants of the core and of the phase, and the engine's fetch stays inside memory. -/
def Obligations.ReachableSessionsMeetTheInvariant : Prop :=
  ∀ c : Session, c.Reachable → c.Inv ∧ (c.core.canStep = true → c.core.pc.toNat + 1 ≤ 4095)

/-- R18, R91, derived (D11 for the phases; the session and its moves are the model's DESIGN CHOICE of notes/assumptions
8). From every session that meets the invariants of the core and of the phase, reachable or not, each host operation and
the engine's move give a session that meets them. -/
def Obligations.SessionMovesKeepInvariant : Prop :=
  ∀ c : Session, c.Inv → (∀ op : HostOp, (c.host op).2.Inv) ∧ c.tick.1.Inv

/-- Two memories in canonical form that read the same at every address are the same list. -/
def Obligations.CanonicalMemoriesAreEqualByReads : Prop :=
  ∀ m m' : Memory, m.wf = true → m'.wf = true → (∀ a : Nat, m.read a = m'.read a) → m = m'

/-! ## Runs -/

/-- R30, derived. No number of passes of the run loop changes a byte of memory. -/
def Obligations.MemoryIsConstantDuringARun : Prop :=
  ∀ (s : State) (n a : Nat), (s.after n).mem.read a = s.mem.read a

/-- R69, derived. A CALL, a callee that never drops below its own depth, and a RET at that depth: execution continues
2 after the CALL with the caller's depth, whatever the callee did. -/
def Obligations.BalancedCalleeReturnsAfterTheCall : Prop :=
  ∀ (s : State) (n : Nat), s.canStep = true → s.fetchWord.toNat / 4096 = 10 → s.sp.val ≤ 15 →
    (∀ k, k ≤ n → s.sp.val + 1 ≤ (s.after (1 + k)).sp.val) →
    (s.after (1 + n)).sp.val = s.sp.val + 1 → (s.after (1 + n)).canStep = true →
    (s.after (1 + n)).fetchWord.toNat / 4096 = 11 →
    (s.after (1 + n + 1)).pc.toNat = s.pc.toNat + 2 ∧ (s.after (1 + n + 1)).sp = s.sp

/-- R98, derived. Control flow does not depend on register values: two states that differ in the sixteen registers only
still differ in them only after any number of passes, so one run ends exactly when the other does, in the same way. -/
def Obligations.RegistersNeverInfluenceControl : Prop :=
  ∀ s t : State, State.AgreeButRegs s t → ∀ n,
    State.AgreeButRegs (s.after n) (t.after n) ∧ (s.after n).stopReason = (t.after n).stopReason

/-- R98, derived. From every state the run either ends or comes into a cycle of its `(pc, sp, stack)` triples that it
never leaves. -/
def Obligations.RunEndsOrCyclesForEver : Prop :=
  ∀ s : State, s.RunEnds ∨
    ∃ start period : Nat, 0 < period ∧
      ∀ k, (s.after (start + k)).canStep = true ∧
        (s.after (start + period + k)).control = (s.after (start + k)).control

/-- R98, R99, derived (D20). What a runner finds does not depend on its bound, once the bound is large enough; and any
two bounds that see the run end see the same outcome and the same final state. -/
def Obligations.RunOutcomeDoesNotDependOnFuel : Prop :=
  (∀ (s t : State) (r : Fault) (n m : Nat), n ≤ m → runFuel n s = .ended r t → runFuel m s = .ended r t) ∧
  (∀ (s t u : State) (r q : Fault) (n m : Nat), runFuel n s = .ended r t → runFuel m s = .ended q u → r = q ∧ t = u)

/-- R91, derived (D1 to D3, D19). A run from a state that meets the invariants ends in one of exactly four ways, told
apart by `status` and `pc`. -/
def Obligations.RunEndsInOneOfFourWays : Prop :=
  ∀ (s t : State) (r : Fault) (n : Nat), s.Inv → s.StopRecorded → runFuel n s = .ended r t →
    (r = .halted ∧ t.status = .halted ∧ t.pc.toNat ≤ 4094 ∧ t.fetchWord = 0x0000#16) ∨
    (r = .offTheEnd ∧ t.status = .running ∧ (t.pc.toNat = 4095 ∨ t.pc.toNat = 4096)) ∨
    (r = .stackOverflow ∧ t.status = .faultStackOverflow ∧ t.fetchWord.toNat / 4096 = 10 ∧ t.sp.val = 16) ∨
    (r = .stackUnderflow ∧ t.status = .faultStackUnderflow ∧ t.fetchWord.toNat / 4096 = 11 ∧ t.sp.val = 0)

/-- R70, derived. CALL and RET are the only sources of a fault: where no address that can be fetched from holds a word
of opcode 10 or 11, an engine that has not faulted never faults. -/
def Obligations.NoFaultWithoutCallOrRet : Prop :=
  ∀ s : State, s.status ≠ .faultStackOverflow → s.status ≠ .faultStackUnderflow →
    (∀ a : Nat, a < 4095 → (s.mem.readWord a).toNat / 4096 ≠ 10 ∧ (s.mem.readWord a).toNat / 4096 ≠ 11) → s.FaultFree

/-! ## Host interface -/

/-- R85, R87, derived (D11; notes/assumptions 6). RESET from Loading or Stopped gives the reset session, whatever the
state was. -/
def Obligations.HostResetForgetsEverything : Prop :=
  ∀ c : Session, c.phase ≠ .executing → c.host .reset = (.done, ⟨.loading, State.reset⟩)

/-- R88, derived (D11, D12; notes/assumptions 7). POKE_REG in Loading writes one register and changes nothing else; an
index above 15 is refused with no change; outside Loading it is not allowed. -/
def Obligations.HostPokesOneRegister : Prop :=
  ∀ (c : Session) (v : Byte),
    (∀ i : RegIdx, c.phase = .loading → ∃ t, c.host (.pokeReg i.val v) = (.done, ⟨.loading, t⟩) ∧
      t.readReg i = v ∧ t.pc = c.core.pc ∧ ChangesOnlyRegAndPc i c.core t) ∧
    (∀ i : Nat, c.phase = .loading → 15 < i → c.host (.pokeReg i v) = (.outOfRange, c)) ∧
    (∀ i : Nat, c.phase ≠ .loading → c.host (.pokeReg i v) = (.notAllowed, c))

/-- R89, derived (D11, D12; notes/assumptions 7). POKE_MEM in Loading writes one cell, keeps every other cell and the
canonical form, and changes nothing else; an address above 4095 is refused with no change; outside Loading it is not
allowed. -/
def Obligations.HostPokesOneCell : Prop :=
  ∀ (c : Session) (a : Nat) (v : Byte), c.core.mem.wf = true →
    (c.phase = .loading → a ≤ 4095 → ∃ t, c.host (.pokeMem a v) = (.done, ⟨.loading, t⟩) ∧
      t.mem.wf = true ∧ t.mem.read a = v ∧ (∀ b : Nat, b ≠ a → t.mem.read b = c.core.mem.read b) ∧
      KeepsRegs c.core t ∧ KeepsStack c.core t ∧ t.pc = c.core.pc ∧ t.status = c.core.status) ∧
    (c.phase = .loading → 4095 < a → c.host (.pokeMem a v) = (.outOfRange, c)) ∧
    (c.phase ≠ .loading → c.host (.pokeMem a v) = (.notAllowed, c))

/-- R92. READ_REG in Loading and Stopped answers the register's current value, or OutOfRange for an index above 15; no
state changes. -/
def Obligations.HostReadsOneRegister : Prop :=
  ∀ c : Session, (c.phase = .loading ∨ c.phase = .stopped) →
    (∀ i : RegIdx, c.host (.readReg i.val) = (.byte (c.core.readReg i), c)) ∧
    (∀ i : Nat, 15 < i → c.host (.readReg i) = (.outOfRange, c))

/-- R93, derived (D12, D13). READ_PC, READ_STATUS and READ_MEM in Loading and Stopped answer the current values, or
OutOfRange for an address above 4095; none changes any state. -/
def Obligations.HostReadsPcStatusAndMemory : Prop :=
  ∀ c : Session, (c.phase = .loading ∨ c.phase = .stopped) →
    c.host .readPc = (.pc c.core.pc, c) ∧ c.host .readStatus = (.status c.core.status, c) ∧
    (∀ a : Nat, a ≤ 4095 → c.host (.readMem a) = (.byte (c.core.mem.read a), c)) ∧
    (∀ a : Nat, 4095 < a → c.host (.readMem a) = (.outOfRange, c))

/-- R87, R94, derived (D11; notes/assumptions 7). While the engine executes the host has no operation: whatever it asks,
nothing happens. That the host is answered `notAllowed` is the model's DESIGN CHOICE of notes/assumptions 7. -/
def Obligations.HostHasNoMoveWhileExecuting : Prop :=
  ∀ (c : Session) (op : HostOp), c.phase = .executing → c.host op = (.notAllowed, c)

/-- R90, derived (D11). RUN starts the engine from Loading and does nothing from Stopped; while Executing the engine
takes steps as long as the guard holds, and when it fails the phase becomes Stopped with the state as it is. -/
def Obligations.RunExecutesUntilTheGuardFails : Prop :=
  ∀ c : Session,
    (c.phase = .loading → c.host .run = (.done, ⟨.executing, c.core⟩)) ∧
    (c.phase = .stopped → c.host .run = (.done, c)) ∧
    (∀ t : State, c.phase = .executing → step c.core = .next t → c.tick.1 = ⟨.executing, t⟩) ∧
    (c.phase = .executing → ¬ (c.core.status = .running ∧ c.core.pc.toNat < 4095) → c.tick.1 = ⟨.stopped, c.core⟩)

/-- R90, derived. The moves of the engine in a session are the passes of the run loop, one for one, whatever the number
of moves. -/
def Obligations.SessionFollowsTheRunLoop : Prop :=
  ∀ (c : Session) (n : Nat), c.phase = .executing →
    (c.ticks n).core = c.core.after n ∧
    ((c.ticks n).phase = .executing ∨ ((c.ticks n).phase = .stopped ∧ (c.core.after n).canStep = false))

/-- R23, R89, derived. A word that the host pokes byte by byte at `a` and `a + 1`, high byte first, is the word the
engine fetches when `pc = a`, odd or even. -/
def Obligations.PokedWordIsFetched : Prop :=
  ∀ (c : Session) (w : Word), c.phase = .loading → c.core.mem.wf = true → c.core.pc.toNat ≤ 4094 →
    (c.hostAll [.pokeMem c.core.pc.toNat (highByte w), .pokeMem (c.core.pc.toNat + 1) (lowByte w)]).core.fetchWord = w

/-- R86, derived (notes/assumptions 5). A word placed for the next step is the word the next step runs, from every
state with canonical memory. -/
def Obligations.PlacedWordRunsNext : Prop :=
  ∀ (s : State) (w : Word), s.mem.wf = true →
    step (s.withFetchWord 16 w.toNat) = exec (decodeWord w) (s.withFetchWord 16 w.toNat)

/-! ## The variant without a call stack -/

/-- R2, derived. In the variant without a call stack, words of opcode 10 and 11 execute as no-ops that advance `pc`;
every other word does what it does in the machine with the call stack. -/
def Obligations.StacklessVariantIsExtended : Prop :=
  ∀ s : State, s.status = .running → s.pc.toNat < 4095 →
    ((s.fetchWord.toNat / 4096 = 10 ∨ s.fetchWord.toNat / 4096 = 11) →
      ∃ t, stepStackless s = .next t ∧ t.pc = s.pc + 2#16 ∧ ChangesOnlyPc s t) ∧
    (s.fetchWord.toNat / 4096 ≠ 10 → s.fetchWord.toNat / 4096 ≠ 11 → stepStackless s = step s)
end

