-- ==== Sys2Proof/Laws/Decode.lean ====
section
/-! SUPPORT. The fields of a word, the bytes of a word and the encoder's words as numbers, so that proofs about
encodings end in linear arithmetic. -/

namespace Sys2Proof

theorem opField_toNat (w : Word) : (opField w).toNat = w.toNat / 4096 := by
  have h := w.isLt
  simp [opField, Nat.shiftRight_eq_div_pow]
  omega

theorem xField_toNat (w : Word) : (xField w).toNat = w.toNat / 256 % 16 := by
  simp [xField, Nat.shiftRight_eq_div_pow]

theorem yField_toNat (w : Word) : (yField w).toNat = w.toNat / 16 % 16 := by
  simp [yField, Nat.shiftRight_eq_div_pow]

theorem zField_toNat (w : Word) : (zField w).toNat = w.toNat % 16 := by
  simp [zField]

/-- Two bit vectors side by side, as a number. -/
theorem append_toNat {n m : Nat} (a : BitVec n) (b : BitVec m) : (a ++ b).toNat = a.toNat * 2 ^ m + b.toNat := by
  rw [BitVec.toNat_append, ← Nat.shiftLeft_add_eq_or_of_lt b.isLt, Nat.shiftLeft_eq]

theorem xyzOf_toNat (w : Word) : (xyzOf w).toNat = w.toNat % 4096 := by
  unfold xyzOf
  rw [append_toNat, append_toNat, xField_toNat, yField_toNat, zField_toNat]
  omega

theorem low14_toNat (w : Word) : (w.extractLsb' 0 14).toNat = w.toNat % 16384 := by
  simp

@[simp] theorem regOf_val (f : Nibble) : (regOf f).val = f.toNat := rfl

theorem fieldOf_toNat (r : RegIdx) : (fieldOf r).toNat = r.val := by
  simp [fieldOf]

theorem wordOf_toNat (op x y z : Nibble) :
    (wordOf op x y z).toNat = op.toNat * 4096 + x.toNat * 256 + y.toNat * 16 + z.toNat := by
  unfold wordOf
  rw [append_toNat, append_toNat, append_toNat]
  omega

theorem wordOf12_toNat (op : Nibble) (low : BitVec 12) : (wordOf12 op low).toNat = op.toNat * 4096 + low.toNat := by
  unfold wordOf12
  rw [append_toNat]
  omega

theorem unimpHigh_toNat (p : BitVec 14) : (encode (.unimpHigh p)).toNat = 3 * 16384 + p.toNat := by
  unfold encode
  rw [append_toNat]
  rfl

theorem wordOfBytes_toNat (hi lo : Byte) : (wordOfBytes hi lo).toNat = hi.toNat * 256 + lo.toNat := by
  unfold wordOfBytes
  rw [append_toNat]
  omega

theorem highByte_toNat (w : Word) : (highByte w).toNat = w.toNat / 256 := by
  have h := w.isLt
  simp [highByte, Nat.shiftRight_eq_div_pow]
  omega

theorem lowByte_toNat (w : Word) : (lowByte w).toNat = w.toNat % 256 := by
  simp [lowByte]

/-- A word laid out as bytes and combined again is the word. -/
@[simp] theorem wordOfBytes_high_low (w : Word) : wordOfBytes (highByte w) (lowByte w) = w := by
  apply BitVec.eq_of_toNat_eq
  rw [wordOfBytes_toNat, highByte_toNat, lowByte_toNat]
  omega

/-- Where a word is neither of the two whole-word encodings, the opcode field decides (R37 steps 3 and 4). -/
theorem decodeWord_byOp {w : Word} (h0 : w ≠ 0x0000#16) (h1 : w ≠ 0x0111#16) : decodeWord w = decodeByOp w := by
  simp [decodeWord, h0, h1]

/-- A word whose opcode field is not 0 is neither HALT nor NOP. -/
theorem decodeWord_of_op_pos {w : Word} (h : 1 ≤ w.toNat / 4096) : decodeWord w = decodeByOp w := by
  refine decodeWord_byOp ?_ ?_ <;>
    · rintro rfl
      simp at h

/-! ## The decoder, opcode by opcode (R37, R41) -/

theorem decodeWord_addReg {w : Word} (h : w.toNat / 4096 = 1) :
    decodeWord w = .addReg (regOf (xField w)) (regOf (yField w)) (regOf (zField w)) := by
  rw [decodeWord_of_op_pos (by omega), decodeByOp, opField_toNat, h]
  rfl

theorem decodeWord_addImm {w : Word} (h : w.toNat / 4096 = 2) :
    decodeWord w = .addImm (regOf (xField w)) (yField w) (regOf (zField w)) := by
  rw [decodeWord_of_op_pos (by omega), decodeByOp, opField_toNat, h]
  rfl

theorem decodeWord_orReg {w : Word} (h : w.toNat / 4096 = 3) :
    decodeWord w = .orReg (regOf (xField w)) (regOf (yField w)) (regOf (zField w)) := by
  rw [decodeWord_of_op_pos (by omega), decodeByOp, opField_toNat, h]
  rfl

theorem decodeWord_orImm {w : Word} (h : w.toNat / 4096 = 4) :
    decodeWord w = .orImm (regOf (xField w)) (yField w) (regOf (zField w)) := by
  rw [decodeWord_of_op_pos (by omega), decodeByOp, opField_toNat, h]
  rfl

theorem decodeWord_andReg {w : Word} (h : w.toNat / 4096 = 5) :
    decodeWord w = .andReg (regOf (xField w)) (regOf (yField w)) (regOf (zField w)) := by
  rw [decodeWord_of_op_pos (by omega), decodeByOp, opField_toNat, h]
  rfl

theorem decodeWord_andImm {w : Word} (h : w.toNat / 4096 = 6) :
    decodeWord w = .andImm (regOf (xField w)) (yField w) (regOf (zField w)) := by
  rw [decodeWord_of_op_pos (by omega), decodeByOp, opField_toNat, h]
  rfl

theorem decodeWord_movReg {w : Word} (h : w.toNat / 4096 = 7) :
    decodeWord w = .movReg (regOf (xField w)) (regOf (yField w)) (zField w) := by
  rw [decodeWord_of_op_pos (by omega), decodeByOp, opField_toNat, h]
  rfl

theorem decodeWord_movImm {w : Word} (h : w.toNat / 4096 = 8) :
    decodeWord w = .movImm (regOf (xField w)) (yField w) (zField w) := by
  rw [decodeWord_of_op_pos (by omega), decodeByOp, opField_toNat, h]
  rfl

theorem decodeWord_jump {w : Word} (h : w.toNat / 4096 = 9) :
    decodeWord w = .jump (xyzOf w) := by
  rw [decodeWord_of_op_pos (by omega), decodeByOp, opField_toNat, h]
  rfl

theorem decodeWord_call {w : Word} (h : w.toNat / 4096 = 10) :
    decodeWord w = .call (xyzOf w) := by
  rw [decodeWord_of_op_pos (by omega), decodeByOp, opField_toNat, h]
  rfl

theorem decodeWord_ret {w : Word} (h : w.toNat / 4096 = 11) :
    decodeWord w = .ret (xyzOf w) := by
  rw [decodeWord_of_op_pos (by omega), decodeByOp, opField_toNat, h]
  rfl

theorem decodeWord_unimpHigh {w : Word} (h : 12 ≤ w.toNat / 4096) :
    decodeWord w = .unimpHigh (w.extractLsb' 0 14) := by
  have hl := w.isLt
  have hop : w.toNat / 4096 = 12 ∨ w.toNat / 4096 = 13 ∨ w.toNat / 4096 = 14 ∨ w.toNat / 4096 = 15 := by omega
  rw [decodeWord_of_op_pos (by omega), decodeByOp, opField_toNat]
  rcases hop with h | h | h | h <;> rw [h] <;> rfl

theorem decodeWord_unimpOp0 {w : Word} (h : w.toNat / 4096 = 0) (h0 : w ≠ 0x0000#16) (h1 : w ≠ 0x0111#16) :
    decodeWord w = .unimpOp0 (xyzOf w) := by
  rw [decodeWord_byOp h0 h1, decodeByOp, opField_toNat, h]
  rfl

/-- The fifteen rows a word can fall in, with the instruction it decodes to (R37). -/
theorem decodeWord_cases (w : Word) :
    (w = 0x0000#16 ∧ decodeWord w = .halt) ∨ (w = 0x0111#16 ∧ decodeWord w = .nop) ∨
    (w.toNat / 4096 = 1 ∧ decodeWord w = .addReg (regOf (xField w)) (regOf (yField w)) (regOf (zField w))) ∨
    (w.toNat / 4096 = 2 ∧ decodeWord w = .addImm (regOf (xField w)) (yField w) (regOf (zField w))) ∨
    (w.toNat / 4096 = 3 ∧ decodeWord w = .orReg (regOf (xField w)) (regOf (yField w)) (regOf (zField w))) ∨
    (w.toNat / 4096 = 4 ∧ decodeWord w = .orImm (regOf (xField w)) (yField w) (regOf (zField w))) ∨
    (w.toNat / 4096 = 5 ∧ decodeWord w = .andReg (regOf (xField w)) (regOf (yField w)) (regOf (zField w))) ∨
    (w.toNat / 4096 = 6 ∧ decodeWord w = .andImm (regOf (xField w)) (yField w) (regOf (zField w))) ∨
    (w.toNat / 4096 = 7 ∧ decodeWord w = .movReg (regOf (xField w)) (regOf (yField w)) (zField w)) ∨
    (w.toNat / 4096 = 8 ∧ decodeWord w = .movImm (regOf (xField w)) (yField w) (zField w)) ∨
    (w.toNat / 4096 = 9 ∧ decodeWord w = .jump (xyzOf w)) ∨
    (w.toNat / 4096 = 10 ∧ decodeWord w = .call (xyzOf w)) ∨
    (w.toNat / 4096 = 11 ∧ decodeWord w = .ret (xyzOf w)) ∨
    (w.toNat / 4096 = 0 ∧ w ≠ 0x0000#16 ∧ w ≠ 0x0111#16 ∧ decodeWord w = .unimpOp0 (xyzOf w)) ∨
    (12 ≤ w.toNat / 4096 ∧ decodeWord w = .unimpHigh (w.extractLsb' 0 14)) := by
  by_cases h0 : w = 0x0000#16
  · subst h0; exact .inl ⟨rfl, rfl⟩
  by_cases h1 : w = 0x0111#16
  · subst h1; exact .inr (.inl ⟨rfl, rfl⟩)
  refine .inr (.inr ?_)
  by_cases hz : w.toNat / 4096 = 0
  · simp [hz, h0, h1, decodeWord_unimpOp0 hz h0 h1]
  by_cases h11 : w.toNat / 4096 = 1
  · simp [h11, decodeWord_addReg h11]
  by_cases h12 : w.toNat / 4096 = 2
  · simp [h12, decodeWord_addImm h12]
  by_cases h13 : w.toNat / 4096 = 3
  · simp [h13, decodeWord_orReg h13]
  by_cases h14 : w.toNat / 4096 = 4
  · simp [h14, decodeWord_orImm h14]
  by_cases h15 : w.toNat / 4096 = 5
  · simp [h15, decodeWord_andReg h15]
  by_cases h16 : w.toNat / 4096 = 6
  · simp [h16, decodeWord_andImm h16]
  by_cases h17 : w.toNat / 4096 = 7
  · simp [h17, decodeWord_movReg h17]
  by_cases h18 : w.toNat / 4096 = 8
  · simp [h18, decodeWord_movImm h18]
  by_cases h19 : w.toNat / 4096 = 9
  · simp [h19, decodeWord_jump h19]
  by_cases h20 : w.toNat / 4096 = 10
  · simp [h20, decodeWord_call h20]
  by_cases h21 : w.toNat / 4096 = 11
  · simp [h21, decodeWord_ret h21]
  have hh : 12 ≤ w.toNat / 4096 := by omega
  simp [hh, decodeWord_unimpHigh hh]

end Sys2Proof
end

