-- ==== Sys2Proof/Laws/Memory.lean ====
section
/-! SUPPORT. Memory: every operation keeps the canonical form, a read after a write to the same cell gives the value
written, and a write leaves every other cell alone. -/

namespace Sys2Proof.Machine

theorem Memory.wfFrom_cons {lo a : Nat} {v : Byte} {m : Memory} :
    Memory.wfFrom lo ((a, v) :: m) = true ↔
      lo ≤ a ∧ a < Config.memSize ∧ v ≠ Config.unlistedByte ∧ Memory.wfFrom (a + 1) m = true := by
  simp [Memory.wfFrom, and_assoc]

/-- A canonical list is canonical from every lower address too. -/
theorem Memory.wfFrom_mono {lo lo' : Nat} {m : Memory} (h : Memory.wfFrom lo m = true) (hl : lo' ≤ lo) :
    Memory.wfFrom lo' m = true := by
  cases m with
  | nil => rfl
  | cons c m =>
    obtain ⟨a, v⟩ := c
    rw [Memory.wfFrom_cons] at h ⊢
    exact ⟨hl.trans h.1, h.2⟩

/-- An address below a canonical list is not listed in it. -/
theorem Memory.read_below {lo a : Nat} {m : Memory} (h : Memory.wfFrom lo m = true) (ha : a < lo) :
    Memory.read m a = Config.unlistedByte := by
  induction m generalizing lo with
  | nil => rfl
  | cons c m ih =>
    obtain ⟨b, v⟩ := c
    rw [Memory.wfFrom_cons] at h
    have hb : b ≠ a := by omega
    simpa [Memory.read, hb] using ih h.2.2.2 (by omega)

theorem Memory.read_consCell_same {a : Nat} {v : Byte} {m : Memory} (h : Memory.wfFrom (a + 1) m = true) :
    (Memory.consCell a v m).read a = v := by
  unfold Memory.consCell
  split
  case isTrue hv => rw [Memory.read_below h (Nat.lt_succ_self a), hv]
  case isFalse => simp [Memory.read]

theorem Memory.read_consCell_other {a b : Nat} {v : Byte} {m : Memory} (h : a ≠ b) :
    (Memory.consCell a v m).read b = m.read b := by
  unfold Memory.consCell
  split
  case isTrue => rfl
  case isFalse => simp [Memory.read, h]

theorem Memory.wfFrom_consCell {lo a : Nat} {v : Byte} {m : Memory} (h : Memory.wfFrom (a + 1) m = true)
    (hl : lo ≤ a) (ha : a < Config.memSize) : Memory.wfFrom lo (Memory.consCell a v m) = true := by
  unfold Memory.consCell
  split
  case isTrue => exact Memory.wfFrom_mono h (by omega)
  case isFalse hv => exact Memory.wfFrom_cons.mpr ⟨hl, ha, hv, h⟩

theorem Memory.wfFrom_write {lo a : Nat} {v : Byte} {m : Memory} (h : Memory.wfFrom lo m = true)
    (hl : lo ≤ a) (ha : a < Config.memSize) : Memory.wfFrom lo (Memory.write m a v) = true := by
  induction m generalizing lo with
  | nil => exact Memory.wfFrom_consCell rfl hl ha
  | cons c m ih =>
    obtain ⟨b, u⟩ := c
    rw [Memory.wfFrom_cons] at h
    unfold Memory.write
    split
    case isTrue hab => exact Memory.wfFrom_consCell (Memory.wfFrom_cons.mpr ⟨hab, h.2⟩) hl ha
    case isFalse hab =>
      split
      case isTrue hEq => subst hEq; exact Memory.wfFrom_consCell h.2.2.2 hl ha
      case isFalse hne =>
        exact Memory.wfFrom_cons.mpr ⟨h.1, h.2.1, h.2.2.1, ih h.2.2.2 (by omega)⟩

/-- A write to a cell that exists keeps the canonical form. -/
theorem Memory.wf_write {a : Nat} {v : Byte} {m : Memory} (h : m.wf = true) (ha : a < Config.memSize) :
    (m.write a v).wf = true :=
  Memory.wfFrom_write h (Nat.zero_le a) ha

theorem Memory.wf_writeWord {a : Nat} {w : Word} {m : Memory} (h : m.wf = true) (ha : a + 1 < Config.memSize) :
    (m.writeWord a w).wf = true :=
  Memory.wf_write (Memory.wf_write h (by omega)) ha

theorem Memory.wf_writeCell? {a : Nat} {v : Byte} {m m' : Memory} (h : m.wf = true)
    (hw : m.writeCell? a v = some m') : m'.wf = true := by
  unfold Memory.writeCell? at hw
  split at hw
  case isTrue ha => cases hw; exact Memory.wf_write h ha
  case isFalse => cases hw

theorem Memory.wfFrom_read_write_same {lo a : Nat} {v : Byte} {m : Memory} (h : Memory.wfFrom lo m = true) :
    (Memory.write m a v).read a = v := by
  induction m generalizing lo with
  | nil => exact Memory.read_consCell_same rfl
  | cons c m ih =>
    obtain ⟨b, u⟩ := c
    rw [Memory.wfFrom_cons] at h
    unfold Memory.write
    split
    case isTrue hab => exact Memory.read_consCell_same (Memory.wfFrom_cons.mpr ⟨hab, h.2⟩)
    case isFalse hab =>
      split
      case isTrue hEq => subst hEq; exact Memory.read_consCell_same h.2.2.2
      case isFalse hne =>
        have hb : b ≠ a := by omega
        simpa [Memory.read, hb] using ih h.2.2.2

/-- A read of the cell just written gives the value written. -/
theorem Memory.read_write_same {a : Nat} {v : Byte} {m : Memory} (h : m.wf = true) : (m.write a v).read a = v :=
  Memory.wfFrom_read_write_same h

/-- A write leaves every other cell alone. -/
theorem Memory.read_write_other {a b : Nat} {v : Byte} {m : Memory} (h : a ≠ b) :
    (Memory.write m a v).read b = m.read b := by
  induction m with
  | nil => exact Memory.read_consCell_other h
  | cons c m ih =>
    obtain ⟨d, u⟩ := c
    unfold Memory.write
    split
    case isTrue => exact Memory.read_consCell_other h
    case isFalse =>
      split
      case isTrue hEq =>
        subst hEq
        rw [Memory.read_consCell_other h]
        simp [Memory.read, h]
      case isFalse => simp only [Memory.read, ih]

/-- A word written to memory reads back at the same address (R22, R23). -/
theorem Memory.readWord_writeWord {a : Nat} {w : Word} {m : Memory} (h : m.wf = true) (ha : a < Config.memSize) :
    (m.writeWord a w).readWord a = w := by
  unfold Memory.readWord Memory.writeWord
  rw [Memory.read_write_same (Memory.wf_write h ha), Memory.read_write_other (by omega), Memory.read_write_same h]
  exact wordOfBytes_high_low w

end Sys2Proof.Machine
end

