-- ==== Sys2Proof/Laws/State.lean ====
section
/-! SUPPORT. One lemma per field per update of the state, so that no proof unfolds a record update. -/

namespace Sys2Proof.Machine

/-! ## writeReg -/

@[simp] theorem State.writeReg_mem (s : State) (i : RegIdx) (v : Byte) : (s.writeReg i v).mem = s.mem := rfl
@[simp] theorem State.writeReg_pc (s : State) (i : RegIdx) (v : Byte) : (s.writeReg i v).pc = s.pc := rfl
@[simp] theorem State.writeReg_stack (s : State) (i : RegIdx) (v : Byte) : (s.writeReg i v).stack = s.stack := rfl
@[simp] theorem State.writeReg_sp (s : State) (i : RegIdx) (v : Byte) : (s.writeReg i v).sp = s.sp := rfl
@[simp] theorem State.writeReg_status (s : State) (i : RegIdx) (v : Byte) : (s.writeReg i v).status = s.status := rfl

@[simp] theorem State.readReg_writeReg_same (s : State) (i : RegIdx) (v : Byte) :
    (s.writeReg i v).readReg i = v := by
  simp [State.readReg, State.writeReg, Vector.get_eq_getElem]

@[simp] theorem State.readReg_writeReg_other {i j : RegIdx} (s : State) (v : Byte) (h : j ≠ i) :
    (s.writeReg i v).readReg j = s.readReg j := by
  have h' : i.val ≠ j.val := fun e => h (Fin.ext e.symm)
  simp [State.readReg, State.writeReg, Vector.get_eq_getElem, h']

/-! ## advancePc -/

@[simp] theorem State.advancePc_regs (s : State) : s.advancePc.regs = s.regs := rfl
@[simp] theorem State.advancePc_mem (s : State) : s.advancePc.mem = s.mem := rfl
@[simp] theorem State.advancePc_pc (s : State) : s.advancePc.pc = s.pc + 2#16 := rfl
@[simp] theorem State.advancePc_stack (s : State) : s.advancePc.stack = s.stack := rfl
@[simp] theorem State.advancePc_sp (s : State) : s.advancePc.sp = s.sp := rfl
@[simp] theorem State.advancePc_status (s : State) : s.advancePc.status = s.status := rfl
@[simp] theorem State.advancePc_readReg (s : State) (i : RegIdx) : s.advancePc.readReg i = s.readReg i := rfl

/-! ## setPc -/

@[simp] theorem State.setPc_regs (s : State) (t : Word) : (s.setPc t).regs = s.regs := rfl
@[simp] theorem State.setPc_mem (s : State) (t : Word) : (s.setPc t).mem = s.mem := rfl
@[simp] theorem State.setPc_pc (s : State) (t : Word) : (s.setPc t).pc = t := rfl
@[simp] theorem State.setPc_stack (s : State) (t : Word) : (s.setPc t).stack = s.stack := rfl
@[simp] theorem State.setPc_sp (s : State) (t : Word) : (s.setPc t).sp = s.sp := rfl
@[simp] theorem State.setPc_status (s : State) (t : Word) : (s.setPc t).status = s.status := rfl
@[simp] theorem State.setPc_readReg (s : State) (t : Word) (i : RegIdx) : (s.setPc t).readReg i = s.readReg i := rfl

/-! ## raise -/

@[simp] theorem State.raise_regs (s : State) (c : Condition) : (s.raise c).regs = s.regs := rfl
@[simp] theorem State.raise_mem (s : State) (c : Condition) : (s.raise c).mem = s.mem := rfl
@[simp] theorem State.raise_pc (s : State) (c : Condition) : (s.raise c).pc = s.pc := rfl
@[simp] theorem State.raise_stack (s : State) (c : Condition) : (s.raise c).stack = s.stack := rfl
@[simp] theorem State.raise_sp (s : State) (c : Condition) : (s.raise c).sp = s.sp := rfl
@[simp] theorem State.raise_status (s : State) (c : Condition) : (s.raise c).status = c.status := rfl
@[simp] theorem State.raise_readReg (s : State) (c : Condition) (i : RegIdx) :
    (s.raise c).readReg i = s.readReg i := rfl

/-! ## slots and the control part -/

/-- A slot is a function of the stack alone. -/
theorem State.slot_congr {s t : State} (h : t.stack = s.stack) (k : SlotIdx) : t.slot k = s.slot k := by
  unfold State.slot
  rw [h]

theorem State.control_eq_iff {s t : State} :
    s.control = t.control ↔ s.pc = t.pc ∧ s.sp = t.sp ∧ s.stack = t.stack ∧ s.status = t.status := by
  simp [State.control]

/-! ## runs -/

@[simp] theorem State.after_zero (s : State) : s.after 0 = s := rfl
@[simp] theorem State.after_succ (s : State) (n : Nat) : s.after (n + 1) = s.afterPass.after n := rfl

theorem State.after_add (s : State) (m n : Nat) : s.after (m + n) = (s.after m).after n := by
  induction m generalizing s with
  | zero => simp
  | succ m ih => rw [Nat.succ_add, State.after_succ, ih, State.after_succ]

end Sys2Proof.Machine
end

