-- ==== Sys2Proof/Laws/Ops.lean ====
section
/-! SUPPORT. One specification lemma for each shared operation: everything it can do. -/

namespace Sys2Proof.Machine

/-- The sum of the arithmetic unit as a number (R57 item 2). -/
@[simp] theorem aluAdd_toNat (a b : Byte) : (aluAdd a b).toNat = (a.toNat + b.toNat) % 256 := by
  simp [aluAdd]

/-- A push that succeeds writes the slot the old `sp` indexes, counts it, and touches nothing else (R13). -/
theorem State.push?_eq_some {s t : State} {v : Word} (h : s.push? v = some t) :
    ∃ hs : s.sp.val < 16, t.slot ⟨s.sp.val, hs⟩ = v ∧ (∀ k : SlotIdx, k.val ≠ s.sp.val → t.slot k = s.slot k) ∧
      t.sp.val = s.sp.val + 1 ∧ t.regs = s.regs ∧ t.mem = s.mem ∧ t.pc = s.pc ∧ t.status = s.status := by
  unfold State.push? at h
  split at h
  case isTrue hs =>
    cases h
    refine ⟨hs, ?_, fun k hk => ?_, rfl, rfl, rfl, rfl, rfl⟩
    · simp [State.slot, Vector.get_eq_getElem]
    · simp [State.slot, Vector.get_eq_getElem, hk.symm]
  case isFalse => cases h

/-- A push succeeds when the stack is not full. -/
theorem State.push?_isSome {s : State} {v : Word} (h : s.sp.val < 16) : ∃ t, s.push? v = some t :=
  ⟨_, dif_pos h⟩

/-- A push on a full stack does nothing. -/
theorem State.push?_eq_none {s : State} {v : Word} (h : s.sp.val = 16) : s.push? v = none :=
  dif_neg (by rw [h]; decide)

/-- A pop that succeeds reads the top slot, uncounts it, and touches nothing else (R13). -/
theorem State.pop?_eq_some {s t : State} {v : Word} (h : s.pop? = some (v, t)) :
    ∃ hs : s.sp.val - 1 < 16, 0 < s.sp.val ∧ v = s.slot ⟨s.sp.val - 1, hs⟩ ∧ t.sp.val = s.sp.val - 1 ∧
      t.stack = s.stack ∧ t.regs = s.regs ∧ t.mem = s.mem ∧ t.pc = s.pc ∧ t.status = s.status := by
  unfold State.pop? at h
  split at h
  case h_1 => cases h
  case h_2 k hk hsp =>
    cases h
    have e : s.sp.val = k + 1 := congrArg Fin.val hsp
    refine ⟨by omega, by omega, ?_, by simp [e], rfl, rfl, rfl, rfl, rfl⟩
    simp [State.slot, e]

/-- A pop succeeds when the stack is not empty. -/
theorem State.pop?_isSome {s : State} (h : 0 < s.sp.val) : ∃ v t, s.pop? = some (v, t) := by
  unfold State.pop?
  split
  case h_1 hsp => simp [hsp] at h
  case h_2 => exact ⟨_, _, rfl⟩

/-- A pop of an empty stack does nothing. -/
theorem State.pop?_eq_none {s : State} (h : s.sp.val = 0) : s.pop? = none := by
  unfold State.pop?
  split
  case h_1 => rfl
  case h_2 k hk hsp => simp [hsp] at h

/-- The step guard, as the two conditions of R48. -/
theorem State.canStep_iff {s : State} : s.canStep = true ↔ s.status = .running ∧ s.pc.toNat < 4095 := by
  simp [State.canStep]

/-- There is an outcome exactly when the guard is false (R48, R91). -/
theorem State.stopReason_eq_none_iff {s : State} : s.stopReason = none ↔ s.canStep = true := by
  rw [State.canStep_iff]
  unfold State.stopReason
  cases s.status <;> simp

/-- The fetched word as a number: the byte at the lower address is the high byte (R22). -/
theorem State.fetchWord_toNat (s : State) :
    s.fetchWord.toNat = (s.mem.read s.pc.toNat).toNat * 256 + (s.mem.read (s.pc.toNat + 1)).toNat :=
  wordOfBytes_toNat _ _

/-- The fetch depends on memory and `pc` only. -/
theorem State.fetchWord_congr {s t : State} (hm : t.mem = s.mem) (hp : t.pc = s.pc) : t.fetchWord = s.fetchWord := by
  unfold State.fetchWord
  rw [hm, hp]

end Sys2Proof.Machine
end

