-- ==== Sys2Proof/Laws/PerInstr.lean ====
section
/-! SUPPORT. Statements about every instruction as syntax, one lemma per constructor of Instr. Family TableRow: the word
of a well-formed instruction fits its row's match and mask in spec/opcode_table.json. -/

namespace Sys2Proof.Laws.TableRow

/-- The `mask` of an instruction's row, as the number of low bits the row leaves open: 0 for HALT and NOP, 14 for
opcodes 12 to 15, 12 for every other row (R41). -/
def openBits : Instr → Nat
  | .halt | .nop => 0
  | .unimpHigh _ => 14
  | .addReg .. | .addImm .. | .orReg .. | .orImm .. | .andReg .. | .andImm .. | .movReg .. | .movImm .. | .jump ..
  | .call .. | .ret .. | .unimpOp0 .. => 12

/-- The `match` of an instruction's row (R41). -/
def matchOf : Instr → Nat
  | .halt => 0x0000
  | .nop => 0x0111
  | .addReg .. => 0x1000
  | .addImm .. => 0x2000
  | .orReg .. => 0x3000
  | .orImm .. => 0x4000
  | .andReg .. => 0x5000
  | .andImm .. => 0x6000
  | .movReg .. => 0x7000
  | .movImm .. => 0x8000
  | .jump .. => 0x9000
  | .call .. => 0xA000
  | .ret .. => 0xB000
  | .unimpOp0 .. => 0x0000
  | .unimpHigh .. => 0xC000

/-- The word of a well-formed instruction is its row's match in the bits the mask fixes; the opcode-0 row excludes the
two words set aside. -/
def Statement (i : Instr) : Prop :=
  i.wellFormed = true →
    (encode i).toNat / 2 ^ openBits i * 2 ^ openBits i = matchOf i ∧
    (i.isUnimplemented = true → encode i ≠ 0x0000#16 ∧ encode i ≠ 0x0111#16)

/-- A row of one opcode and four open fields. -/
theorem wordOf_row (op x y z : Nibble) : (wordOf op x y z).toNat / 2 ^ 12 * 2 ^ 12 = op.toNat * 4096 := by
  rw [wordOf_toNat]
  omega

/-- A row of one opcode and twelve open bits. -/
theorem wordOf12_row (op : Nibble) (low : BitVec 12) : (wordOf12 op low).toNat / 2 ^ 12 * 2 ^ 12 = op.toNat * 4096 := by
  rw [wordOf12_toNat]
  omega

theorem halt : Statement .halt := fun _ => ⟨rfl, fun h => by cases h⟩
theorem nop : Statement .nop := fun _ => ⟨rfl, fun h => by cases h⟩
theorem addReg (x y z : RegIdx) : Statement (.addReg x y z) := fun _ => ⟨wordOf_row .., fun h => by cases h⟩
theorem addImm (x : RegIdx) (imm : Nibble) (z : RegIdx) : Statement (.addImm x imm z) :=
  fun _ => ⟨wordOf_row .., fun h => by cases h⟩
theorem orReg (x y z : RegIdx) : Statement (.orReg x y z) := fun _ => ⟨wordOf_row .., fun h => by cases h⟩
theorem orImm (x : RegIdx) (imm : Nibble) (z : RegIdx) : Statement (.orImm x imm z) :=
  fun _ => ⟨wordOf_row .., fun h => by cases h⟩
theorem andReg (x y z : RegIdx) : Statement (.andReg x y z) := fun _ => ⟨wordOf_row .., fun h => by cases h⟩
theorem andImm (x : RegIdx) (imm : Nibble) (z : RegIdx) : Statement (.andImm x imm z) :=
  fun _ => ⟨wordOf_row .., fun h => by cases h⟩
theorem movReg (x y : RegIdx) (ignored : Nibble) : Statement (.movReg x y ignored) :=
  fun _ => ⟨wordOf_row .., fun h => by cases h⟩
theorem movImm (x : RegIdx) (imm ignored : Nibble) : Statement (.movImm x imm ignored) :=
  fun _ => ⟨wordOf_row .., fun h => by cases h⟩
theorem jump (addr : Addr) : Statement (.jump addr) := fun _ => ⟨wordOf12_row .., fun h => by cases h⟩
theorem call (addr : Addr) : Statement (.call addr) := fun _ => ⟨wordOf12_row .., fun h => by cases h⟩
theorem ret (ignored : BitVec 12) : Statement (.ret ignored) := fun _ => ⟨wordOf12_row .., fun h => by cases h⟩

theorem unimpOp0 (payload : BitVec 12) : Statement (.unimpOp0 payload) := by
  intro hwf
  have hp : payload ≠ 0x000#12 ∧ payload ≠ 0x111#12 := by simpa [Instr.wellFormed] using hwf
  refine ⟨wordOf12_row .., fun _ => ⟨fun h => hp.1 ?_, fun h => hp.2 ?_⟩⟩ <;>
    · have := congrArg BitVec.toNat h
      apply BitVec.eq_of_toNat_eq
      simpa [encode, wordOf12_toNat] using this

theorem unimpHigh (payload : BitVec 14) : Statement (.unimpHigh payload) := by
  intro _
  have hn := unimpHigh_toNat payload
  have hp := payload.isLt
  refine ⟨?_, fun _ => ⟨fun h => ?_, fun h => ?_⟩⟩
  · show (encode (.unimpHigh payload)).toNat / 2 ^ 14 * 2 ^ 14 = 0xC000
    omega
  · have := congrArg BitVec.toNat h
    rw [hn] at this
    simp at this
  · have := congrArg BitVec.toNat h
    rw [hn] at this
    simp at this
    omega

end Sys2Proof.Laws.TableRow
end

