-- ==== Sys2Proof/Laws/Step.lean ====
section
/-! SUPPORT. What a step and a pass can do, said once. -/

namespace Sys2Proof.Machine

/-- Where the guard holds, a step is the execution of the decoded instruction. -/
theorem step_of_canStep {s : State} (h : s.canStep = true) : step s = exec (decodeWord s.fetchWord) s := by
  unfold step
  rw [State.stopReason_eq_none_iff.mpr h]

/-- Where the guard is false, a step answers the outcome of the run. -/
theorem step_of_stopped {s : State} {r : Fault} (h : s.stopReason = some r) : step s = .fault r := by
  unfold step
  rw [h]

/-- A step that answers a next state had its guard true and ran the decoded instruction. -/
theorem step_eq_next {s t : State} (h : step s = .next t) :
    s.canStep = true ∧ exec (decodeWord s.fetchWord) s = .next t := by
  unfold step at h
  split at h
  case h_1 => cases h
  case h_2 hn => exact ⟨State.stopReason_eq_none_iff.mp hn, h⟩

/-- What an instruction can do to a state: write one register and advance, advance, set `pc`, push and set `pc`, pop
and set `pc`, halt, or raise. Every `exec` answers a next state of one of these shapes. -/
theorem exec_cases (i : Instr) (s : State) :
    (∃ r v, i.dest? = some r ∧ exec i s = .next (s.writeReg r v).advancePc) ∨
    ((i = .nop ∨ i.isUnimplemented = true) ∧ exec i s = .next s.advancePc) ∨
    (∃ a, i = .jump a ∧ exec i s = .next (s.setPc (targetOperand a))) ∨
    (∃ a t, i = .call a ∧ s.push? s.pc = some t ∧ exec i s = .next (t.setPc (targetOperand a))) ∨
    (∃ a, i = .call a ∧ s.sp.val = 16 ∧ exec i s = .next (s.raise .stackOverflow)) ∨
    (∃ g v t, i = .ret g ∧ s.pop? = some (v, t) ∧ exec i s = .next (t.setPc (v + 2#16))) ∨
    (∃ g, i = .ret g ∧ s.sp.val = 0 ∧ exec i s = .next (s.raise .stackUnderflow)) ∨
    (i = .halt ∧ exec i s = .next { s with status := .halted }) := by
  cases i with
  | halt => simp [exec, execHalt]
  | nop => exact .inr (.inl ⟨.inl rfl, rfl⟩)
  | unimpOp0 p => exact .inr (.inl ⟨.inr rfl, rfl⟩)
  | unimpHigh p => exact .inr (.inl ⟨.inr rfl, rfl⟩)
  | addReg x y z => exact .inl ⟨z, _, rfl, rfl⟩
  | addImm x n z => exact .inl ⟨z, _, rfl, rfl⟩
  | orReg x y z => exact .inl ⟨z, _, rfl, rfl⟩
  | orImm x n z => exact .inl ⟨z, _, rfl, rfl⟩
  | andReg x y z => exact .inl ⟨z, _, rfl, rfl⟩
  | andImm x n z => exact .inl ⟨z, _, rfl, rfl⟩
  | movReg x y g => exact .inl ⟨x, _, rfl, rfl⟩
  | movImm x n g => exact .inl ⟨x, _, rfl, rfl⟩
  | jump a => exact .inr (.inr (.inl ⟨a, rfl, rfl⟩))
  | call a =>
    by_cases hs : s.sp.val < 16
    · obtain ⟨t, ht⟩ := State.push?_isSome (s := s) (v := s.pc) hs
      exact .inr (.inr (.inr (.inl ⟨a, t, rfl, ht, by simp [exec, execCall, ht]⟩)))
    · have h16 : s.sp.val = 16 := by omega
      have hn := State.push?_eq_none (s := s) (v := s.pc) h16
      exact .inr (.inr (.inr (.inr (.inl ⟨a, rfl, h16, by simp [exec, execCall, hn]⟩))))
  | ret g =>
    by_cases hs : 0 < s.sp.val
    · obtain ⟨v, t, ht⟩ := State.pop?_isSome hs
      exact .inr (.inr (.inr (.inr (.inr (.inl ⟨g, v, t, rfl, ht, by simp [exec, execRet, ht]⟩)))))
    · have h0 : s.sp.val = 0 := by omega
      have hn := State.pop?_eq_none h0
      exact .inr (.inr (.inr (.inr (.inr (.inr (.inl ⟨g, rfl, h0, by simp [exec, execRet, hn]⟩))))))

/-- Every instruction answers a next state; where the guard holds, so does a step. -/
theorem step_of_canStep_next {s : State} (h : s.canStep = true) : ∃ t, step s = .next t := by
  rw [step_of_canStep h]
  rcases exec_cases (decodeWord s.fetchWord) s with ⟨_, _, _, e⟩ | ⟨_, e⟩ | ⟨_, _, e⟩ | ⟨_, _, _, _, e⟩ |
    ⟨_, _, _, e⟩ | ⟨_, _, _, _, _, e⟩ | ⟨_, _, _, e⟩ | ⟨_, e⟩ <;> exact ⟨_, e⟩

/-- Everything a step that answers a next state can have done, by the number of the fetched word alone. -/
theorem step_cases {s t : State} (hstep : step s = .next t) :
    s.status = .running ∧ s.pc.toNat < 4095 ∧
    ((s.fetchWord = 0x0000#16 ∧ t = { s with status := .halted }) ∨
     (s.fetchWord ≠ 0x0000#16 ∧ (s.fetchWord.toNat / 4096 = 0 ∨ 12 ≤ s.fetchWord.toNat / 4096) ∧ t = s.advancePc) ∨
     (1 ≤ s.fetchWord.toNat / 4096 ∧ s.fetchWord.toNat / 4096 ≤ 6 ∧
       ∃ v, t = (s.writeReg (regOf (zField s.fetchWord)) v).advancePc) ∨
     (7 ≤ s.fetchWord.toNat / 4096 ∧ s.fetchWord.toNat / 4096 ≤ 8 ∧
       ∃ v, t = (s.writeReg (regOf (xField s.fetchWord)) v).advancePc) ∨
     (s.fetchWord.toNat / 4096 = 9 ∧ t = s.setPc (targetOperand (xyzOf s.fetchWord))) ∨
     (s.fetchWord.toNat / 4096 = 10 ∧ ∃ u, s.push? s.pc = some u ∧ t = u.setPc (targetOperand (xyzOf s.fetchWord))) ∨
     (s.fetchWord.toNat / 4096 = 10 ∧ s.sp.val = 16 ∧ t = s.raise .stackOverflow) ∨
     (s.fetchWord.toNat / 4096 = 11 ∧ ∃ v u, s.pop? = some (v, u) ∧ t = u.setPc (v + 2#16)) ∨
     (s.fetchWord.toNat / 4096 = 11 ∧ s.sp.val = 0 ∧ t = s.raise .stackUnderflow)) := by
  obtain ⟨hc, he⟩ := step_eq_next hstep
  obtain ⟨hr, hp⟩ := State.canStep_iff.mp hc
  refine ⟨hr, hp, ?_⟩
  have pos : ∀ {w : Word}, 1 ≤ w.toNat / 4096 → w ≠ 0x0000#16 := by
    rintro w h rfl
    simp at h
  rcases decodeWord_cases s.fetchWord with ⟨h, e⟩ | ⟨h, e⟩ | ⟨h, e⟩ | ⟨h, e⟩ | ⟨h, e⟩ | ⟨h, e⟩ | ⟨h, e⟩ | ⟨h, e⟩ |
    ⟨h, e⟩ | ⟨h, e⟩ | ⟨h, e⟩ | ⟨h, e⟩ | ⟨h, e⟩ | ⟨h, h0, -, e⟩ | ⟨h, e⟩ <;> rw [e] at he
  · cases he; exact .inl ⟨h, rfl⟩
  · cases he; exact .inr (.inl ⟨by rw [h]; decide, .inl (by rw [h]; decide), rfl⟩)
  iterate 6 (· cases he; exact .inr (.inr (.inl ⟨by omega, by omega, _, rfl⟩)))
  iterate 2 (· cases he; exact .inr (.inr (.inr (.inl ⟨by omega, by omega, _, rfl⟩))))
  · cases he; exact .inr (.inr (.inr (.inr (.inl ⟨h, rfl⟩))))
  · by_cases hs : s.sp.val < 16
    · obtain ⟨u, hu⟩ := State.push?_isSome (s := s) (v := s.pc) hs
      simp only [exec, execCall, hu, Host.Outcome.next.injEq] at he
      exact .inr (.inr (.inr (.inr (.inr (.inl ⟨h, u, hu, he.symm⟩)))))
    · have h16 : s.sp.val = 16 := by omega
      simp only [exec, execCall, State.push?_eq_none h16, Host.Outcome.next.injEq] at he
      exact .inr (.inr (.inr (.inr (.inr (.inr (.inl ⟨h, h16, he.symm⟩))))))
  · by_cases hs : 0 < s.sp.val
    · obtain ⟨v, u, hu⟩ := State.pop?_isSome hs
      simp only [exec, execRet, hu, Host.Outcome.next.injEq] at he
      exact .inr (.inr (.inr (.inr (.inr (.inr (.inr (.inl ⟨h, v, u, hu, he.symm⟩)))))))
    · have h0 : s.sp.val = 0 := by omega
      simp only [exec, execRet, State.pop?_eq_none h0, Host.Outcome.next.injEq] at he
      exact .inr (.inr (.inr (.inr (.inr (.inr (.inr (.inr ⟨h, h0, he.symm⟩)))))))
  · cases he; exact .inr (.inl ⟨h0, .inl h, rfl⟩)
  · cases he; exact .inr (.inl ⟨pos (by omega), .inr h, rfl⟩)

/-- A pass of the loop takes the step where there is one. -/
theorem afterPass_of_next {s t : State} (h : step s = .next t) : s.afterPass = t := by
  unfold State.afterPass
  rw [h]

/-- A pass of the loop leaves a stopped engine as it is. -/
theorem afterPass_of_stopped {s : State} (h : s.canStep = false) : s.afterPass = s := by
  have hn : s.stopReason ≠ none := fun e => by rw [State.stopReason_eq_none_iff.mp e] at h; cases h
  obtain ⟨r, hr⟩ := Option.ne_none_iff_exists'.mp hn
  unfold State.afterPass
  rw [step_of_stopped hr]

/-- A pass either takes a step or finds the engine stopped. -/
theorem afterPass_cases (s : State) :
    (s.canStep = false ∧ s.afterPass = s) ∨ (s.canStep = true ∧ step s = .next s.afterPass) := by
  cases hc : s.canStep with
  | false => exact .inl ⟨rfl, afterPass_of_stopped hc⟩
  | true =>
    obtain ⟨t, ht⟩ := step_of_canStep_next hc
    rw [afterPass_of_next ht]
    exact .inr ⟨rfl, ht⟩

/-- What holds of a state and is kept by every step holds after any number of passes. -/
theorem after_keeps {P : State → Prop} (keep : ∀ s t, P s → step s = .next t → P t) {s : State} (h : P s) (n : Nat) :
    P (s.after n) := by
  induction n generalizing s with
  | zero => exact h
  | succ n ih =>
    refine ih ?_
    rcases afterPass_cases s with ⟨-, e⟩ | ⟨-, e⟩
    · rwa [e]
    · exact keep _ _ h e

/-- What holds of the reset session and is kept by every host operation and every move of the engine holds of every
reachable session. -/
theorem reachable_keeps {P : Session → Prop} (reset : P Session.reset) (host : ∀ c op, P c → P (c.host op).2)
    (tick : ∀ c, P c → P c.tick.1) {c : Session} (h : c.Reachable) : P c := by
  induction h with
  | reset => exact reset
  | host c op _ ih => exact host c op ih
  | tick c _ ih => exact tick c ih

end Sys2Proof.Machine
end

