-- ==== Sys2Proof/Tests/Slice0.lean ====
section
/-! SUPPORT. The model's own tests. Expected results are those of spec/95_test_vectors.md (T-..., S-..., P...), or written
out by hand from the rule named. The last part gives, for each obligation with hypotheses, a state and operands that
meet them, clause by clause at a boundary value. -/

namespace Sys2Proof.Tests

open Sys2Proof Sys2Proof.Machine

/-! ## Helpers -/

/-- The reset state with the word `w` at address `p` and `pc = p`. -/
def stAt (p w : Word) : State := { State.reset with pc := p }.placeWord w

/-- The same with `sp` active entries and every slot holding `v`. -/
def stStack (p w : Word) (sp : Fin 17) (v : Word) : State :=
  { stAt p w with sp := sp, stack := Vector.replicate 16 v }

/-- The active entries of such a state are bounded where the one value in its slots is. -/
theorem stStack_bounded (p w : Word) (sp : Fin 17) {v : Word} (h : v.toNat ≤ 4094) :
    (stStack p w sp v).ActiveEntriesBounded := by
  intro k _
  simpa [stStack, State.slot, Vector.get_eq_getElem] using h

/-- Such a state records no stop: it is running. -/
theorem stStack_stopRecorded (p w : Word) (sp : Fin 17) (v : Word) : (stStack p w sp v).StopRecorded :=
  ⟨fun h => (by cases h), fun h => (by cases h), fun h => (by cases h)⟩

/-- How a run under a bound ended, if it did. -/
def runOutcome (fuel : Nat) (s : State) : Option Fault :=
  match runFuel fuel s with
  | .ended r _ => some r
  | .outOfFuel _ => none

theorem runOutcome_eq_some {fuel : Nat} {s : State} {r : Fault} (h : runOutcome fuel s = some r) :
    ∃ t, runFuel fuel s = .ended r t := by
  unfold runOutcome at h
  split at h
  case h_1 t e => exact ⟨t, by rw [e, Option.some.inj h]⟩
  case h_2 => cases h

/-- What one step answers, if it is a next state. -/
def stepped (s : State) : Option State :=
  match step s with
  | .next t => some t
  | .fault _ | .refused _ => none

theorem stepped_eq_some {s t : State} (h : stepped s = some t) : step s = .next t := by
  unfold stepped at h
  split at h
  case h_1 e => rw [e, Option.some.inj h]
  all_goals cases h

theorem step_of_isSome {s : State} (h : (stepped s).isSome = true) : ∃ t, step s = .next t :=
  let ⟨t, ht⟩ := Option.isSome_iff_exists.mp h
  ⟨t, stepped_eq_some ht⟩

/-- The outcome a step answers where there is no step. -/
def outcome (s : State) : Option Fault :=
  match step s with
  | .fault r => some r
  | .next _ | .refused _ => none

/-! ## Parameters and well-formedness -/

theorem test_widths_match_parameters :
    Byte = BitVec Config.xlen ∧ Byte = BitVec Config.cellWidth ∧ Word = BitVec Config.ilen ∧
    Word = BitVec Config.stackWidth ∧ Word = BitVec Config.pcWidth ∧ Nibble = BitVec Config.fieldWidth ∧
    Addr = BitVec Config.addrLen ∧ RegIdx = Fin Config.numRegs ∧ SlotIdx = Fin Config.stackDepth ∧
    Fin 17 = Fin (Config.spMax + 1) :=
  ⟨rfl, rfl, rfl, rfl, rfl, rfl, rfl, rfl, rfl, rfl⟩

theorem test_wellFormed_refuses_halt_as_unimp : (Instr.unimpOp0 0x000#12).wellFormed = false := by decide

theorem test_wellFormed_refuses_nop_as_unimp : (Instr.unimpOp0 0x111#12).wellFormed = false := by decide

theorem test_wellFormed_accepts_neighbours :
    (Instr.unimpOp0 0x110#12).wellFormed = true ∧ (Instr.unimpOp0 0x001#12).wellFormed = true := by decide

/-! ## Decoding: words written out from the patterns of R41 -/

theorem test_decode_halt : decodeWord 0b0000_0000_0000_0000#16 = .halt := by decide
theorem test_decode_nop : decodeWord 0b0000_0001_0001_0001#16 = .nop := by decide
theorem test_decode_addReg : decodeWord 0b0001_1010_1011_1100#16 = .addReg 10 11 12 := by decide
theorem test_decode_addImm : decodeWord 0b0010_1111_0000_1111#16 = .addImm 15 0#4 15 := by decide
theorem test_decode_orReg : decodeWord 0b0011_0000_0001_0010#16 = .orReg 0 1 2 := by decide
theorem test_decode_orImm : decodeWord 0b0100_0000_0101_0001#16 = .orImm 0 5#4 1 := by decide
theorem test_decode_andReg : decodeWord 0b0101_0000_0001_0010#16 = .andReg 0 1 2 := by decide
theorem test_decode_andImm : decodeWord 0b0110_0000_1111_0010#16 = .andImm 0 15#4 2 := by decide
theorem test_decode_movReg : decodeWord 0b0111_0011_0001_1111#16 = .movReg 3 1 15#4 := by decide
theorem test_decode_movImm : decodeWord 0b1000_0001_0010_1111#16 = .movImm 1 2#4 15#4 := by decide
theorem test_decode_jump : decodeWord 0b1001_0000_0010_0110#16 = .jump 0x026#12 := by decide
theorem test_decode_call : decodeWord 0b1010_0001_0000_0000#16 = .call 0x100#12 := by decide
theorem test_decode_ret : decodeWord 0b1011_1010_1011_1100#16 = .ret 0xABC#12 := by decide
theorem test_decode_unimpOp0 : decodeWord 0b0000_0001_0001_0000#16 = .unimpOp0 0x110#12 := by decide
theorem test_decode_unimpHigh : decodeWord 0b1100_0000_0000_0000#16 = .unimpHigh 0#14 := by decide

/-- Big-endian: the high byte comes first (T-FET-1, T-FET-2). -/
theorem test_decode_bytes_bigEndian :
    decode [0x10#8, 0x12#8, 0xFF#8] = .ok (.addReg 0 1 2, [0xFF#8]) ∧
    decode [0x12#8, 0x10#8] = .ok (.addReg 2 1 0, []) := by decide

/-- One byte is no instruction. -/
theorem test_decode_truncated : decode [0x10#8] = .error .truncated := by decide

theorem test_decodeTableWord :
    decodeTableWord 16 0x9026 = some (.jump 0x026#12) ∧ decodeTableWord 16 0xFFFF = some (.unimpHigh 0x3FFF#14) := by
  decide

/-! ## Fetch -/

/-- T-FET-3: an odd `pc`. -/
theorem test_fetch_odd :
    State.fetchWord { State.reset with pc := 1#16, mem := [(1, 0x81#8), (2, 0x50#8)] } = 0x8150#16 := by decide

/-- T-FET-4: the last address that can be fetched from. -/
theorem test_fetch_last :
    State.fetchWord { State.reset with pc := 4094#16, mem := [(4094, 0x87#8), (4095, 0x70#8)] } = 0x8770#16 := by
  decide

/-- Writing 0 takes the cell out of the list; a lower address goes in front. -/
theorem test_memory_canonical :
    Memory.write [(5, 1#8)] 5 0#8 = [] ∧ Memory.write [(5, 1#8)] 3 2#8 = [(3, 2#8), (5, 1#8)] ∧
    Memory.wf [(5, 1#8), (5, 2#8)] = false ∧ Memory.wf [(4096, 1#8)] = false := by decide

/-! ## One step of each instruction (spec/95_test_vectors.md) -/

/-- T-ADD-2, and T-ADD-6 (all three registers the same). -/
theorem test_addReg_wraps :
    ((stepped (((stAt 0#16 0x1012#16).writeReg 0 200#8).writeReg 1 100#8)).map (·.readReg 2)) = some 44#8 ∧
    ((stepped ((stAt 0#16 0x1333#16).writeReg 3 0x81#8)).map (·.readReg 3)) = some 0x02#8 := by decide

/-- T-ADDI-5: field y is a number, not a register; T-ADDI-3. -/
theorem test_addImm_is_a_number :
    ((stepped (((stAt 0#16 0x2012#16).writeReg 0 5#8).writeReg 1 100#8)).map (·.readReg 2)) = some 6#8 ∧
    ((stepped ((stAt 0#16 0x20F1#16).writeReg 0 255#8)).map (·.readReg 1)) = some 14#8 := by decide

/-- T-OR-4: the destination is a source. -/
theorem test_orReg_in_place :
    ((stepped (((stAt 0#16 0x3010#16).writeReg 0 0x0C#8).writeReg 1 0x0A#8)).map (·.readReg 0)) = some 0x0E#8 := by
  decide

/-- T-ORI-1. -/
theorem test_orImm_keeps_high_nibble :
    ((stepped ((stAt 0#16 0x4051#16).writeReg 0 0xA0#8)).map (·.readReg 1)) = some 0xA5#8 := by decide

/-- T-AND-1. -/
theorem test_andReg :
    ((stepped (((stAt 0#16 0x5012#16).writeReg 0 0xCC#8).writeReg 1 0xAA#8)).map (·.readReg 2)) = some 0x88#8 := by
  decide

/-- T-ANDI-2. -/
theorem test_andImm_clears_high_nibble :
    ((stepped ((stAt 0#16 0x60F2#16).writeReg 0 0xAB#8)).map (·.readReg 2)) = some 0x0B#8 := by decide

/-- T-MOV-2: the destination is field x, field z is ignored. -/
theorem test_movReg_destination :
    ((stepped (((stAt 0#16 0x731F#16).writeReg 1 0x5A#8).writeReg 15 0x77#8)).map
      (fun t => (t.readReg 3, t.readReg 15, t.pc))) = some (0x5A#8, 0x77#8, 2#16) := by decide

/-- T-MOVI-1, T-MOVI-2: four bits, not eight. -/
theorem test_movImm_four_bits :
    ((stepped ((stAt 0#16 0x8490#16).writeReg 4 0xFF#8)).map (·.readReg 4)) = some 9#8 ∧
    ((stepped (stAt 0#16 0x812F#16)).map (·.readReg 1)) = some 2#8 := by decide

/-- T-HLT-2: `pc` stays. -/
theorem test_halt :
    stepped { State.reset with pc := 0x28#16 } = some { State.reset with pc := 0x28#16, status := .halted } := by
  decide

/-- T-NOP-2: at 4094, off the end. -/
theorem test_nop_off_the_end :
    ((stepped (stAt 4094#16 0x0111#16)).map (fun t => (t.pc, t.status, outcome t))) =
      some (4096#16, .running, some .offTheEnd) := by decide

/-- T-UNI-1 and T-HLT-3: the step and its event. -/
theorem test_unimplemented :
    stepped (stAt 4#16 0xC123#16) = some (stAt 4#16 0xC123#16).advancePc ∧
    (stAt 4#16 0xC123#16).stepEvent = some (.unimpl 4#16 0xC123#16) ∧
    stepped (stAt 0#16 0x0001#16) = some (stAt 0#16 0x0001#16).advancePc ∧
    (stAt 0#16 0x0001#16).stepEvent = some (.unimpl 0#16 0x0001#16) := by decide

/-- The events of a run of three passes: the word 0xC000, then HALT in unwritten memory (R56, P1). -/
theorem test_events_of_run : (stAt 0x1A#16 0xC000#16).eventsOf 3 = [.unimpl 0x1A#16 0xC000#16] := by decide

/-- The codes of R14 and R70. -/
theorem test_status_codes :
    Status.running.code = 0#2 ∧ Status.halted.code = 1#2 ∧ Condition.stackOverflow.status.code = 2#2 ∧
    Condition.stackUnderflow.status.code = 3#2 := by decide

/-- T-JMP-3, T-JMP-5. -/
theorem test_jump :
    ((stepped (stAt 0#16 0x9FFF#16)).map (·.pc)) = some 4095#16 ∧
    ((stepped (stAt 0#16 0x9005#16)).map (·.pc)) = some 5#16 := by decide

/-- T-CALL-4: the 16th entry succeeds. -/
theorem test_call_sixteenth :
    ((stepped (stStack 0x30#16 0xA200#16 15 7#16)).map (fun t => (t.slot 15, t.slot 14, t.sp, t.pc, t.status))) =
      some (0x30#16, 7#16, 16, 0x200#16, .running) := by decide

/-- T-CALL-5: the 17th faults and changes nothing else. -/
theorem test_call_overflow :
    stepped (stStack 0x30#16 0xA200#16 16 0x1E#16) =
      some { stStack 0x30#16 0xA200#16 16 0x1E#16 with status := .faultStackOverflow } := by decide

/-- T-RET-5: fields ignored, odd return; T-RET-4. -/
theorem test_ret :
    ((stepped (stStack 0x20#16 0xBABC#16 1 7#16)).map (fun t => (t.sp, t.pc, t.slot 0))) = some (0, 9#16, 7#16) ∧
    ((stepped (stStack 0x10#16 0xB000#16 1 4094#16)).map (·.pc)) = some 4096#16 := by decide

/-- T-RET-3: underflow. -/
theorem test_ret_underflow :
    stepped (stAt 2#16 0xB000#16) = some { stAt 2#16 0xB000#16 with status := .faultStackUnderflow } := by decide

/-- The word the host places runs as the first instruction after reset; from a stopped state too. -/
theorem test_withFetchWord :
    ((stepped (State.reset.withFetchWord 16 0x8490)).map (·.readReg 4)) = some 9#8 ∧
    ((stepped (({ State.reset with pc := 4095#16, status := .halted } : State).withFetchWord 16 0x8490)).map
      (·.readReg 4)) = some 9#8 := by decide

/-- R2: in the variant without a call stack a CALL word advances and is reported. -/
theorem test_stackless_call :
    (stAt 4#16 0xA100#16).stepEventStackless = some (.unimpl 4#16 0xA100#16) ∧
    (stAt 4#16 0xA100#16).stepEvent = none := by decide

/-! ## Host interface (T-HOST) -/

/-- T-HOST-2 and T-HOST-5: out of range, no change. -/
theorem test_host_outOfRange :
    Session.reset.host (.readReg 16) = (.outOfRange, Session.reset) ∧
    Session.reset.host (.pokeMem 4096 1#8) = (.outOfRange, Session.reset) := by decide

/-- T-HOST-3, T-HOST-4. -/
theorem test_host_poke_then_read :
    ((Session.reset.hostAll [.pokeReg 0 3#8]).host (.readReg 0)).1 = .byte 3#8 ∧
    ((Session.reset.hostAll [.pokeMem 4095 0x70#8]).host (.readMem 4095)).1 = .byte 0x70#8 := by decide

/-- T-HOST-6: nothing poked, RUN: one step, HALT at 0; the second move finds the guard false. -/
theorem test_host_run_empty :
    (Session.reset.hostAll [.run]).ticks 2 = ⟨.stopped, { State.reset with status := .halted }⟩ := by decide

/-! ## Assembly (R46) -/

theorem test_assembly :
    disassemble 0x1ABC#16 = ⟨"ADD-REG", [.reg 10, .reg 11, .reg 12]⟩ ∧
    disassemble 0x731F#16 = ⟨".word", [.raw 0x731F#16]⟩ ∧
    assemble ⟨"MOV-IMM", [.reg 4, .imm 9#4]⟩ = some 0x8490#16 := ⟨rfl, rfl, rfl⟩

/-! ## Witnesses: the hypotheses of each obligation can be met -/

theorem witness_HaltStopsWithoutAdvancing :
    ∃ s t, step s = .next t ∧ t.status = .halted ∧ s.pc = 4094#16 :=
  ⟨{ State.reset with pc := 4094#16 }, { State.reset with pc := 4094#16, status := .halted },
    stepped_eq_some (by decide), rfl, rfl⟩

theorem witness_UnwrittenMemoryIsHalt : ({ State.reset with pc := 7#16 } : State).mem = State.reset.mem := rfl

theorem witness_NopOnlyAdvances :
    (stAt 4094#16 0x0111#16).status = .running ∧ (stAt 4094#16 0x0111#16).pc = 4094#16 ∧
    (stAt 4094#16 0x0111#16).fetchWord = 0x0111#16 := by decide

theorem witness_MovRegCopiesIntoFirstOperand :
    ∃ s t u, exec (.movReg 3 3 15#4) s = .next t ∧ exec (.movReg 3 3 15#4) t = .next u :=
  ⟨State.reset, _, _, rfl, rfl⟩

theorem witness_MovImmLoadsFourBits :
    ∃ s t u, exec (.movImm 15 15#4 15#4) s = .next t ∧ exec (.movImm 15 15#4 15#4) t = .next u :=
  ⟨State.reset, _, _, rfl, rfl⟩

theorem witness_JumpSetsPcToTarget :
    (stAt 16#16 0x9010#16).pc.toNat = (0x010#12 : Addr).toNat ∧ (stAt 16#16 0x9010#16).status = .running ∧
    (0xFFF#12 : Addr).toNat = 4095 := by decide

theorem witness_CallPushesOwnAddressOrOverflows :
    (stStack 0#16 0xAFFF#16 15 0#16).sp.val ≤ 15 ∧ (stStack 0#16 0xAFFF#16 16 0#16).sp.val = 16 := by decide

theorem witness_RetResumesAfterCallOrUnderflows :
    1 ≤ (stStack 0#16 0xB000#16 1 0#16).sp.val ∧ (0 : SlotIdx).val + 1 = (stStack 0#16 0xB000#16 1 0#16).sp.val ∧
    (15 : SlotIdx).val + 1 = (stStack 0#16 0xB000#16 16 0#16).sp.val ∧ (stAt 0#16 0xB000#16).sp.val = 0 := by decide

theorem witness_DecodeInvertsEncode :
    (Instr.unimpOp0 0x112#12).wellFormed = true ∧ (Instr.unimpHigh 0x3FFF#14).wellFormed = true := by decide

theorem witness_IgnoredFieldsHaveNoEffect :
    (0x731F#16 : Word).toNat / 4096 = 7 ∧ (0x731F#16 : Word).toNat / 16 = (0x7310#16 : Word).toNat / 16 ∧
    (0x8FFF#16 : Word).toNat / 4096 = 8 ∧ (0x8FFF#16 : Word).toNat / 16 = (0x8FF0#16 : Word).toNat / 16 ∧
    (0xB000#16 : Word).toNat / 4096 = 11 ∧ (0xBFFF#16 : Word).toNat / 4096 = 11 := by decide

theorem witness_FetchIsBigEndian : (stAt 4094#16 0x8770#16).canStep = true := by decide

theorem witness_StepRunsTheDecodedInstruction :
    (stAt 4094#16 0x8770#16).status = .running ∧ (stAt 4094#16 0x8770#16).pc.toNat < 4095 ∧
    decode [(stAt 4094#16 0x8770#16).mem.read (stAt 4094#16 0x8770#16).pc.toNat,
      (stAt 4094#16 0x8770#16).mem.read ((stAt 4094#16 0x8770#16).pc.toNat + 1)] =
      .ok (.movImm 7 7#4 0#4, []) := by decide

theorem witness_StepExistsExactlyUnderTheGuard :
    ¬ ((({ State.reset with pc := 4095#16 } : State).status = .running) ∧
      ({ State.reset with pc := 4095#16 } : State).pc.toNat < 4095) := by decide

theorem witness_StoppedEngineNamesItsOutcome :
    ({ State.reset with status := .halted } : State).status = .halted ∧
    (({ State.reset with pc := 4095#16 } : State).status = .running ∧
      4095 ≤ ({ State.reset with pc := 4095#16 } : State).pc.toNat) ∧
    (State.reset.raise .stackOverflow).status = .faultStackOverflow ∧
    (State.reset.raise .stackUnderflow).status = .faultStackUnderflow := by decide

/-- A word, placed at 4094 with `sp` entries of value 4094 on the stack, gives a step from a state that meets the bound
on active entries (`stStack_bounded`): one word for each clause. -/
theorem witness_PcMovesByTheFetchedWord :
    (∀ w sp, (stStack 4094#16 w sp 4094#16).ActiveEntriesBounded) ∧
    ([(0x0000#16, 0), (0x9FFF#16, 0), (0xAFFF#16, 15), (0xA000#16, 16), (0xB000#16, 1), (0xBFFF#16, 16), (0xB000#16, 0),
        (0x0111#16, 0), (0xFFFF#16, 16)] : List (Word × Fin 17)).all
      (fun c => (stStack 4094#16 c.1 c.2 4094#16).fetchWord == c.1 &&
        (stepped (stStack 4094#16 c.1 c.2 4094#16)).isSome) = true :=
  ⟨fun w sp => stStack_bounded _ w sp (by decide), by decide⟩

theorem witness_StatusAfterAStep :
    ∃ t, step (stStack 4094#16 0xA000#16 16 4094#16) = .next t := step_of_isSome (by decide)

theorem witness_RegistersChangeOnlyAtTheDestination :
    (∃ t, step (stAt 0#16 0x1012#16) = .next t) ∧ (3 : RegIdx).val ≠ (0x1012#16 : Word).toNat % 16 ∧
    (∃ t, step (stAt 0#16 0x8490#16) = .next t) ∧ (15 : RegIdx).val ≠ (0x8490#16 : Word).toNat / 256 % 16 :=
  ⟨step_of_isSome (by decide), by decide, step_of_isSome (by decide), by decide⟩

theorem witness_OnlyCallAndRetTouchTheStack :
    (∃ t, step (stAt 0#16 0x9000#16) = .next t) ∧ (0x9000#16 : Word).toNat / 4096 ≠ 10 ∧
    (0x9000#16 : Word).toNat / 4096 ≠ 11 ∧ (∃ t, step (stStack 0#16 0xA000#16 15 0#16) = .next t) ∧
    (14 : SlotIdx).val ≠ (stStack 0#16 0xA000#16 15 0#16).sp.val := 
  ⟨step_of_isSome (by decide), by decide, by decide, step_of_isSome (by decide), by decide⟩

theorem witness_StepReadsOnlyTheFetchedBytes :
    Memory.read [(0, 0x81#8), (1, 0x50#8), (2, 9#8)] (stAt 0#16 0x8150#16).pc.toNat =
      (stAt 0#16 0x8150#16).mem.read (stAt 0#16 0x8150#16).pc.toNat ∧
    Memory.read [(0, 0x81#8), (1, 0x50#8), (2, 9#8)] ((stAt 0#16 0x8150#16).pc.toNat + 1) =
      (stAt 0#16 0x8150#16).mem.read ((stAt 0#16 0x8150#16).pc.toNat + 1) ∧
    (stepped (stAt 0#16 0x8150#16)).isSome = true := by decide

theorem witness_StackFaultIsPreciseAndSticky :
    ((stStack 4094#16 0xA000#16 16 0#16).status = .running ∧ (stStack 4094#16 0xA000#16 16 0#16).pc.toNat < 4095 ∧
      (stStack 4094#16 0xA000#16 16 0#16).fetchWord.toNat / 4096 = 10 ∧
      (stStack 4094#16 0xA000#16 16 0#16).sp.val = 16) ∧
    ((stAt 4094#16 0xBFFF#16).fetchWord.toNat / 4096 = 11 ∧ (stAt 4094#16 0xBFFF#16).sp.val = 0 ∧
      (stAt 4094#16 0xBFFF#16).canStep = true) := by decide

theorem witness_StepKeepsInvariant :
    (stStack 4094#16 0xB000#16 16 4094#16).Inv ∧ (stepped (stStack 4094#16 0xB000#16 16 4094#16)).isSome = true := by
  decide

theorem witness_StepLeavesStopRecord : ∃ t, step (stAt 4094#16 0xB000#16) = .next t :=
  step_of_isSome (by decide)

theorem witness_ReachableSessionsMeetTheInvariant :
    ((Session.reset.host (.pokeMem 0 0x90#8)).2.host .run).2.tick.1.Reachable ∧
    ((Session.reset.host (.pokeMem 0 0x90#8)).2.host .run).2.tick.1.core.canStep = true :=
  ⟨.tick _ (.host _ _ (.host _ _ .reset)), by decide⟩

/-- A session in each phase: fresh, executing a RET at 4094 with a full stack, and halted at a 0x0000 word at 4094. -/
theorem witness_SessionMovesKeepInvariant :
    Session.reset.Inv ∧ (⟨.executing, stStack 4094#16 0xB000#16 16 4094#16⟩ : Session).Inv ∧
    (⟨.stopped, { stAt 4094#16 0x0000#16 with status := .halted }⟩ : Session).Inv :=
  ⟨by decide, by decide, by decide⟩

theorem witness_CanonicalMemoriesAreEqualByReads :
    ∃ m m' : Memory, m ≠ [] ∧ m.wf = true ∧ m'.wf = true ∧ ∀ a : Nat, m.read a = m'.read a :=
  ⟨[(4095, 1#8)], [(4095, 1#8)], by decide, by decide, by decide, fun _ => rfl⟩

/-- CALL 0x010 at 0 with 15 entries, and at 0x010 a NOP and a RET: a callee of one instruction. -/
def calleeOfOne : State :=
  { stStack 0#16 0xA010#16 15 0#16 with
    mem := [(0, 0xA0#8), (1, 0x10#8), (0x10, 0x01#8), (0x11, 0x11#8), (0x12, 0xB0#8)] }

theorem witness_BalancedCalleeReturnsAfterTheCall :
    calleeOfOne.canStep = true ∧ calleeOfOne.fetchWord.toNat / 4096 = 10 ∧ calleeOfOne.sp.val ≤ 15 ∧
    (∀ k, k ≤ 1 → calleeOfOne.sp.val + 1 ≤ (calleeOfOne.after (1 + k)).sp.val) ∧
    (calleeOfOne.after (1 + 1)).sp.val = calleeOfOne.sp.val + 1 ∧ (calleeOfOne.after (1 + 1)).canStep = true ∧
    (calleeOfOne.after (1 + 1)).fetchWord.toNat / 4096 = 11 := by decide

theorem witness_RegistersNeverInfluenceControl :
    State.AgreeButRegs (stAt 0#16 0x1012#16) ((stAt 0#16 0x1012#16).writeReg 0 1#8) ∧
    stAt 0#16 0x1012#16 ≠ (stAt 0#16 0x1012#16).writeReg 0 1#8 := by decide

theorem witness_RunOutcomeDoesNotDependOnFuel :
    runFuel 1 State.reset = .ended .halted { State.reset with status := .halted } ∧
    runFuel 3 State.reset = .ended .halted { State.reset with status := .halted } := by decide

theorem witness_RunEndsInOneOfFourWays :
    (∀ w sp, (stStack 4094#16 w sp 4094#16).ActiveEntriesBounded ∧ (stStack 4094#16 w sp 4094#16).StopRecorded ∧
      (stStack 4094#16 w sp 4094#16).pc.toNat ≤ 4096) ∧
    ([0x0000#16, 0x0111#16, 0xA000#16, 0xB000#16] : List Word).all
      (fun w => (stStack 4094#16 w 0 4094#16).mem.wf) = true ∧
    (∃ t, runFuel 1 (stStack 4094#16 0x0000#16 0 4094#16) = .ended .halted t) ∧
    (∃ t, runFuel 1 (stStack 4094#16 0x0111#16 0 4094#16) = .ended .offTheEnd t) ∧
    (∃ t, runFuel 1 (stStack 4094#16 0xA000#16 16 4094#16) = .ended .stackOverflow t) ∧
    (∃ t, runFuel 1 (stStack 4094#16 0xB000#16 0 4094#16) = .ended .stackUnderflow t) :=
  ⟨fun w sp => ⟨stStack_bounded _ w sp (by decide), stStack_stopRecorded _ w sp _, (by decide : 4094 ≤ 4096)⟩,
    by decide, runOutcome_eq_some (by decide), runOutcome_eq_some (by decide), runOutcome_eq_some (by decide),
    runOutcome_eq_some (by decide)⟩

/-- A memory of one JUMP: no address gives a word of opcode 10 or 11. -/
theorem witness_NoFaultWithoutCallOrRet :
    (stAt 0#16 0x9000#16).status ≠ .faultStackOverflow ∧ (stAt 0#16 0x9000#16).status ≠ .faultStackUnderflow ∧
    ∀ a : Nat, a < 4095 → ((stAt 0#16 0x9000#16).mem.readWord a).toNat / 4096 ≠ 10 ∧
      ((stAt 0#16 0x9000#16).mem.readWord a).toNat / 4096 ≠ 11 := by
  refine ⟨by decide, by decide, fun a _ => ?_⟩
  have hm : (stAt 0#16 0x9000#16).mem = [(0, 0x90#8)] := by decide
  rw [hm]
  cases a with
  | zero => decide
  | succ n =>
    have h : Memory.readWord [(0, 0x90#8)] (n + 1) = 0x0000#16 := by
      simp [Memory.readWord, Memory.read, wordOfBytes, Config.unlistedByte]
    rw [h]
    decide

theorem witness_HostResetForgetsEverything :
    (⟨.stopped, stAt 2#16 0xB000#16⟩ : Session).phase ≠ .executing ∧ Session.reset.phase ≠ .executing := by decide

theorem witness_HostPokesOneRegister :
    Session.reset.phase = .loading ∧ 15 < 16 ∧ (⟨.stopped, State.reset⟩ : Session).phase ≠ .loading := by decide

theorem witness_HostPokesOneCell :
    Session.reset.core.mem.wf = true ∧ Session.reset.phase = .loading ∧ 4095 ≤ 4095 ∧ 4095 < 4096 ∧
    (⟨.executing, State.reset⟩ : Session).phase ≠ .loading ∧ (⟨.executing, State.reset⟩ : Session).core.mem.wf = true := by
  decide

theorem witness_HostReadsOneRegister :
    Session.reset.phase = .loading ∧ (⟨.stopped, State.reset⟩ : Session).phase = .stopped ∧ 15 < 16 := by decide

theorem witness_HostReadsPcStatusAndMemory :
    Session.reset.phase = .loading ∧ (⟨.stopped, State.reset⟩ : Session).phase = .stopped ∧ 4095 ≤ 4095 ∧
    4095 < 4096 := by decide

theorem witness_HostHasNoMoveWhileExecuting : (⟨.executing, State.reset⟩ : Session).phase = .executing := by decide

theorem witness_RunExecutesUntilTheGuardFails :
    Session.reset.phase = .loading ∧ (⟨.stopped, State.reset⟩ : Session).phase = .stopped ∧
    (∃ t, step (⟨.executing, State.reset⟩ : Session).core = .next t) ∧
    ¬ ((⟨.executing, { State.reset with pc := 4095#16 }⟩ : Session).core.status = .running ∧
      (⟨.executing, { State.reset with pc := 4095#16 }⟩ : Session).core.pc.toNat < 4095) :=
  ⟨by decide, by decide, step_of_isSome (by decide), by decide⟩

theorem witness_SessionFollowsTheRunLoop :
    (⟨.executing, stAt 0#16 0x9FFE#16⟩ : Session).phase = .executing := by decide

theorem witness_PokedWordIsFetched :
    Session.reset.phase = .loading ∧ Session.reset.core.mem.wf = true ∧ Session.reset.core.pc.toNat ≤ 4094 ∧
    ({ State.reset with pc := 4094#16 } : State).pc.toNat ≤ 4094 := by decide

theorem witness_PlacedWordRunsNext :
    (stAt 4094#16 0x8770#16).mem.wf = true ∧ ({ State.reset with pc := 4096#16 } : State).mem.wf = true := by decide

theorem witness_StacklessVariantIsExtended :
    (stAt 4094#16 0xA000#16).status = .running ∧ (stAt 4094#16 0xA000#16).pc.toNat < 4095 ∧
    (stAt 4094#16 0xA000#16).fetchWord.toNat / 4096 = 10 ∧ (stAt 4094#16 0xB000#16).fetchWord.toNat / 4096 = 11 ∧
    (stAt 4094#16 0xFFFF#16).fetchWord.toNat / 4096 ≠ 10 ∧
    (stAt 4094#16 0xFFFF#16).fetchWord.toNat / 4096 ≠ 11 := by decide

end Sys2Proof.Tests
end

section
/-! PROOFS. The variant without a call stack (spec/00_scope.md R2). -/

namespace Sys2Proof.Machine

/-- The advance of R51 is the whole effect of a no-op. -/
theorem changesOnlyPc_advancePc (s : State) : ChangesOnlyPc s s.advancePc :=
  ⟨State.advancePc_readReg s, fun a => by rw [State.advancePc_mem],
    ⟨State.slot_congr (State.advancePc_stack s), State.advancePc_sp s⟩, State.advancePc_status s⟩

/-- The two rows that R2 takes out of the machine are the words of opcode 10 and 11. -/
theorem usesCallStack_decodeWord_iff (w : Word) :
    usesCallStack (decodeWord w) = true ↔ w.toNat / 4096 = 10 ∨ w.toNat / 4096 = 11 := by
  rcases decodeWord_cases w with ⟨rfl, e⟩ | ⟨rfl, e⟩ | ⟨h, e⟩ | ⟨h, e⟩ | ⟨h, e⟩ | ⟨h, e⟩ | ⟨h, e⟩ | ⟨h, e⟩ |
    ⟨h, e⟩ | ⟨h, e⟩ | ⟨h, e⟩ | ⟨h, e⟩ | ⟨h, e⟩ | ⟨h, -, -, e⟩ | ⟨h, e⟩ <;> rw [e]
  iterate 2 (· decide)
  iterate 9 (· exact iff_of_false Bool.false_ne_true (by omega))
  · exact iff_of_true rfl (.inl h)
  · exact iff_of_true rfl (.inr h)
  iterate 2 (· exact iff_of_false Bool.false_ne_true (by omega))

/-- Where the guard holds, a step of the variant is its dispatch of the decoded instruction. -/
theorem stepStackless_of_canStep {s : State} (h : s.canStep = true) :
    stepStackless s = execStackless (decodeWord s.fetchWord) s := by
  unfold stepStackless
  rw [State.stopReason_eq_none_iff.mpr h]

theorem execStackless_of_usesCallStack {i : Instr} (h : usesCallStack i = true) (s : State) :
    execStackless i s = .next s.advancePc :=
  if_pos h

theorem execStackless_of_not_usesCallStack {i : Instr} (h : ¬ usesCallStack i = true) (s : State) :
    execStackless i s = exec i s :=
  if_neg h

/-- Settles O57: the opcode of the fetched word decides which branch of the variant's dispatch is taken. -/
theorem stacklessVariantIsExtended : Obligations.StacklessVariantIsExtended := by
  intro s hrun hpc
  have hc : s.canStep = true := State.canStep_iff.mpr ⟨hrun, hpc⟩
  refine ⟨fun hop => ⟨s.advancePc, ?_, State.advancePc_pc s, changesOnlyPc_advancePc s⟩, fun h10 h11 => ?_⟩
  · rw [stepStackless_of_canStep hc,
      execStackless_of_usesCallStack ((usesCallStack_decodeWord_iff _).mpr hop)]
  · have hno : ¬ usesCallStack (decodeWord s.fetchWord) = true := fun hu =>
      ((usesCallStack_decodeWord_iff _).mp hu).elim h10 h11
    rw [stepStackless_of_canStep hc, execStackless_of_not_usesCallStack hno, step_of_canStep hc]

end Sys2Proof.Machine
end

section
/-! PROOFS. What a step does to each part of the state (spec/10_state.md R10 to R18, R91): memory, registers, call stack,
run state, program counter. -/

namespace Sys2Proof.Machine

variable {s t : State}

theorem State.readReg_congr (h : t.regs = s.regs) (j : RegIdx) : t.readReg j = s.readReg j := by
  unfold State.readReg
  rw [h]

/-- A word of opcode 1 or more is not HALT's. -/
theorem ne_haltWord_of_op_pos {w : Word} (h : 1 ≤ w.toNat / 4096) : w ≠ 0x0000#16 := by
  rintro rfl
  simp at h

/-- The register that field z names, by the number of the word. -/
theorem val_regOf_zField (w : Word) : (regOf (zField w)).val = w.toNat % 16 :=
  zField_toNat w

/-- The register that field x names, by the number of the word. -/
theorem val_regOf_xField (w : Word) : (regOf (xField w)).val = w.toNat / 256 % 16 :=
  xField_toNat w

/-- A target address is at most 4095 (R39). -/
theorem targetOperand_toNat_lt (a : Addr) : (targetOperand a).toNat < 4096 := by
  have h : (targetOperand a).toNat = a.toNat := BitVec.toNat_setWidth_of_le (by decide)
  rw [h]
  exact a.isLt

/-- The advance of R51 does not wrap from a program counter up to 4094, an active entry or a fetched address. -/
theorem add_two_toNat {w : Word} (h : w.toNat ≤ 4094) : (w + 2#16).toNat = w.toNat + 2 := by
  rw [BitVec.toNat_add, show (2#16).toNat = 2 from rfl]
  omega

/-! ## Memory and registers -/

/-- No step writes memory (R29, R30). -/
theorem step_mem (h : step s = .next t) : t.mem = s.mem := by
  obtain ⟨-, -, ⟨-, rfl⟩ | ⟨-, -, rfl⟩ | ⟨-, -, v, rfl⟩ | ⟨-, -, v, rfl⟩ | ⟨-, rfl⟩ | ⟨-, u, hu, rfl⟩ | ⟨-, -, rfl⟩ |
    ⟨-, v, u, hu, rfl⟩ | ⟨-, -, rfl⟩⟩ := step_cases h
  iterate 5 (· rfl)
  · obtain ⟨-, -, -, -, -, hmem, -⟩ := State.push?_eq_some hu
    exact hmem
  · rfl
  · obtain ⟨-, -, -, -, -, -, hmem, -⟩ := State.pop?_eq_some hu
    exact hmem
  · rfl

/-- A step leaves the register file or writes the one register its word names (R10). -/
theorem step_regs_cases (h : step s = .next t) :
    t.regs = s.regs ∨
    (1 ≤ s.fetchWord.toNat / 4096 ∧ s.fetchWord.toNat / 4096 ≤ 6 ∧
      ∀ j, j ≠ regOf (zField s.fetchWord) → t.readReg j = s.readReg j) ∨
    (7 ≤ s.fetchWord.toNat / 4096 ∧ s.fetchWord.toNat / 4096 ≤ 8 ∧
      ∀ j, j ≠ regOf (xField s.fetchWord) → t.readReg j = s.readReg j) := by
  obtain ⟨-, -, ⟨-, rfl⟩ | ⟨-, -, rfl⟩ | ⟨h1, h6, v, rfl⟩ | ⟨h7, h8, v, rfl⟩ | ⟨-, rfl⟩ | ⟨-, u, hu, rfl⟩ |
    ⟨-, -, rfl⟩ | ⟨-, v, u, hu, rfl⟩ | ⟨-, -, rfl⟩⟩ := step_cases h
  iterate 2 (· exact .inl rfl)
  · exact .inr (.inl ⟨h1, h6, fun j hj => State.readReg_writeReg_other s v hj⟩)
  · exact .inr (.inr ⟨h7, h8, fun j hj => State.readReg_writeReg_other s v hj⟩)
  · exact .inl rfl
  · obtain ⟨-, -, -, -, hregs, -⟩ := State.push?_eq_some hu
    exact .inl hregs
  · exact .inl rfl
  · obtain ⟨-, -, -, -, -, hregs, -⟩ := State.pop?_eq_some hu
    exact .inl hregs
  · exact .inl rfl

/-- Settles O30: the register written, where there is one, is the one the excepted field names. -/
theorem registersChangeOnlyAtTheDestination : Obligations.RegistersChangeOnlyAtTheDestination := by
  intro s t hstep j hz hx
  rcases step_regs_cases hstep with hregs | ⟨h1, h6, hother⟩ | ⟨h7, h8, hother⟩
  · exact State.readReg_congr hregs j
  · exact hother j fun e => hz ⟨h1, h6, by rw [e, val_regOf_zField]⟩
  · exact hother j fun e => hx ⟨h7, h8, by rw [e, val_regOf_xField]⟩

/-! ## The call stack -/

/-- A step leaves the call stack, or is a CALL that pushes its own address, or a RET that uncounts the top slot and
keeps its value (R13, D8). -/
theorem step_stack_cases (h : step s = .next t) :
    (t.stack = s.stack ∧ t.sp = s.sp) ∨
    (s.fetchWord.toNat / 4096 = 10 ∧ t.sp.val = s.sp.val + 1 ∧ (∀ k : SlotIdx, k.val = s.sp.val → t.slot k = s.pc) ∧
      ∀ k : SlotIdx, k.val ≠ s.sp.val → t.slot k = s.slot k) ∨
    (s.fetchWord.toNat / 4096 = 11 ∧ t.sp.val = s.sp.val - 1 ∧ t.stack = s.stack) := by
  obtain ⟨-, -, ⟨-, rfl⟩ | ⟨-, -, rfl⟩ | ⟨-, -, v, rfl⟩ | ⟨-, -, v, rfl⟩ | ⟨-, rfl⟩ | ⟨h10, u, hu, rfl⟩ |
    ⟨-, -, rfl⟩ | ⟨h11, v, u, hu, rfl⟩ | ⟨-, -, rfl⟩⟩ := step_cases h
  iterate 5 (· exact .inl ⟨rfl, rfl⟩)
  · obtain ⟨hs, htop, hother, hsp, -⟩ := State.push?_eq_some hu
    refine .inr (.inl ⟨h10, hsp, fun k hk => ?_, hother⟩)
    obtain rfl : k = ⟨s.sp.val, hs⟩ := Fin.ext hk
    exact htop
  · exact .inl ⟨rfl, rfl⟩
  · obtain ⟨-, -, -, hsp, hstack, -⟩ := State.pop?_eq_some hu
    exact .inr (.inr ⟨h11, hsp, hstack⟩)
  · exact .inl ⟨rfl, rfl⟩

/-- Settles O31: outside a push the slots are as before, and a push is a CALL's and writes the slot `sp` indexes. -/
theorem onlyCallAndRetTouchTheStack : Obligations.OnlyCallAndRetTouchTheStack := by
  intro s t hstep
  rcases step_stack_cases hstep with ⟨hstack, hsp⟩ | ⟨h10, -, -, hother⟩ | ⟨h11, -, hstack⟩
  · exact ⟨fun _ _ => ⟨State.slot_congr hstack, hsp⟩, fun k _ => State.slot_congr hstack k⟩
  · exact ⟨fun hne _ => absurd h10 hne, fun k hk => hother k (hk.resolve_right (not_not_intro h10))⟩
  · exact ⟨fun _ hne => absurd h11 hne, fun k _ => State.slot_congr hstack k⟩

/-- The entry a CALL makes active is its own address, below 4095 by the guard; a RET only makes fewer active
(R18 item 3). -/
theorem step_activeEntriesBounded (hb : s.ActiveEntriesBounded) (h : step s = .next t) :
    t.ActiveEntriesBounded := by
  obtain ⟨-, hpc, -⟩ := step_cases h
  intro k hk
  rcases step_stack_cases h with ⟨hstack, hsp⟩ | ⟨-, hsp, htop, hother⟩ | ⟨-, hsp, hstack⟩
  · rw [State.slot_congr hstack k]
    exact hb k (hsp ▸ hk)
  · by_cases hks : k.val = s.sp.val
    · rw [htop k hks]
      omega
    · rw [hother k hks]
      exact hb k (by omega)
  · rw [State.slot_congr hstack k]
    exact hb k (by omega)

/-! ## The run state -/

/-- A step goes on Running, or it is one of the three that stop the engine, which change `status` alone (R14, R16,
R53, R73). -/
theorem step_status_cases (h : step s = .next t) :
    (t.status = .running ∧ s.fetchWord ≠ 0x0000#16 ∧ ¬ (s.fetchWord.toNat / 4096 = 10 ∧ s.sp.val = 16) ∧
      ¬ (s.fetchWord.toNat / 4096 = 11 ∧ s.sp.val = 0)) ∨
    (s.fetchWord = 0x0000#16 ∧ t = { s with status := .halted }) ∨
    (s.fetchWord.toNat / 4096 = 10 ∧ s.sp.val = 16 ∧ t = s.raise .stackOverflow) ∨
    (s.fetchWord.toNat / 4096 = 11 ∧ s.sp.val = 0 ∧ t = s.raise .stackUnderflow) := by
  obtain ⟨hrun, -, hhalt | ⟨h0, hop, rfl⟩ | ⟨h1, h6, v, rfl⟩ | ⟨h7, h8, v, rfl⟩ | ⟨h9, rfl⟩ | ⟨h10, u, hu, rfl⟩ |
    hover | ⟨h11, v, u, hu, rfl⟩ | hunder⟩ := step_cases h
  · exact .inr (.inl hhalt)
  · exact .inl ⟨hrun, h0, by omega, by omega⟩
  · exact .inl ⟨hrun, ne_haltWord_of_op_pos h1, by omega, by omega⟩
  · exact .inl ⟨hrun, ne_haltWord_of_op_pos (by omega), by omega, by omega⟩
  · exact .inl ⟨hrun, ne_haltWord_of_op_pos (by omega), by omega, by omega⟩
  · obtain ⟨hs, -, -, -, -, -, -, hstatus⟩ := State.push?_eq_some hu
    exact .inl ⟨hstatus.trans hrun, ne_haltWord_of_op_pos (by omega), by omega, by omega⟩
  · exact .inr (.inr (.inl hover))
  · obtain ⟨-, hs, -, -, -, -, -, -, hstatus⟩ := State.pop?_eq_some hu
    exact .inl ⟨hstatus.trans hrun, ne_haltWord_of_op_pos (by omega), by omega, by omega⟩
  · exact .inr (.inr (.inr hunder))

/-- Settles O29: the chain of tests is the case distinction of `step_status_cases`. -/
theorem statusAfterAStep : Obligations.StatusAfterAStep := by
  intro s t hstep
  rcases step_status_cases hstep with ⟨hrun, h0, hover, hunder⟩ | ⟨h0, rfl⟩ | ⟨h10, h16, rfl⟩ | ⟨h11, hz, rfl⟩
  · rw [if_neg h0, if_neg hover, if_neg hunder, hrun]
  · rw [if_pos h0]
  · rw [if_neg (ne_haltWord_of_op_pos (by omega)), if_pos ⟨h10, h16⟩]
    rfl
  · rw [if_neg (ne_haltWord_of_op_pos (by omega)), if_neg (by omega), if_pos ⟨h11, hz⟩]
    rfl

/-- A running engine has no stop to record. -/
theorem State.stopRecorded_of_running (h : s.status = .running) : s.StopRecorded := by
  refine ⟨fun e => ?_, fun e => ?_, fun e => ?_⟩ <;> cases h.symm.trans e

/-- A step that stops the engine leaves `pc` and memory, so the word it fetched is still the record of the cause
(R91). -/
theorem step_stopRecorded (h : step s = .next t) : t.StopRecorded := by
  obtain ⟨-, hpc, -⟩ := step_cases h
  have hpc' : s.pc.toNat ≤ 4094 := by omega
  rcases step_status_cases h with ⟨hrun, -⟩ | ⟨h0, rfl⟩ | ⟨h10, h16, rfl⟩ | ⟨h11, hz, rfl⟩
  · exact State.stopRecorded_of_running hrun
  · exact ⟨fun _ => ⟨hpc', h0⟩, nofun, nofun⟩
  · exact ⟨nofun, fun _ => ⟨hpc', (opField_toNat _).trans h10, h16⟩, nofun⟩
  · exact ⟨nofun, nofun, fun _ => ⟨hpc', (opField_toNat _).trans h11, hz⟩⟩

/-! ## The invariant of R18 -/

/-- No step takes `pc` above 4096: an advance starts below 4095, a target has 12 bits, and a popped entry is an active
one (R18 item 1). -/
theorem step_pc_le (hb : s.ActiveEntriesBounded) (h : step s = .next t) : t.pc.toNat ≤ 4096 := by
  obtain ⟨-, hpc, hcases⟩ := step_cases h
  have hadv : (s.pc + 2#16).toNat ≤ 4096 := by
    rw [add_two_toNat (by omega)]
    omega
  have hkeep : s.pc.toNat ≤ 4096 := by omega
  have htarget : (targetOperand (xyzOf s.fetchWord)).toNat ≤ 4096 := (targetOperand_toNat_lt _).le
  rcases hcases with ⟨-, rfl⟩ | ⟨-, -, rfl⟩ | ⟨-, -, v, rfl⟩ | ⟨-, -, v, rfl⟩ | ⟨-, rfl⟩ | ⟨-, u, -, rfl⟩ |
    ⟨-, -, rfl⟩ | ⟨-, v, u, hu, rfl⟩ | ⟨-, -, rfl⟩
  · exact hkeep
  · exact hadv
  · exact hadv
  · exact hadv
  · exact htarget
  · exact htarget
  · exact hkeep
  · obtain ⟨_, hsp, hv, -⟩ := State.pop?_eq_some hu
    have hv' : v.toNat ≤ 4094 := hv ▸ hb _ (Nat.sub_one_lt_of_lt hsp)
    rw [State.setPc_pc, add_two_toNat hv']
    omega
  · exact hkeep

/-- Settles O36: each of the three parts of the invariant is kept. -/
theorem stepKeepsInvariant : Obligations.StepKeepsInvariant := by
  rintro s t ⟨-, hb, hwf⟩ hstep
  exact ⟨step_pc_le hb hstep, step_activeEntriesBounded hb hstep, by rwa [step_mem hstep]⟩

end Sys2Proof.Machine
end

section
/-! PROOFS. The canonical form of memory determines the list (spec/10_state.md R11; notes/assumptions 11). -/

namespace Sys2Proof.Machine

/-- An address that reads as a listed byte lies in the range of a canonical list. -/
theorem Memory.le_of_read_ne {lo a : Nat} {m : Memory} (h : Memory.wfFrom lo m = true)
    (hr : m.read a ≠ Config.unlistedByte) : lo ≤ a :=
  Nat.le_of_not_lt fun ha => hr (Memory.read_below h ha)

@[simp] theorem Memory.read_cons_same (a : Nat) (v : Byte) (m : Memory) : Memory.read ((a, v) :: m) a = v :=
  if_pos rfl

theorem Memory.read_cons_other {a b : Nat} (v : Byte) (m : Memory) (h : a ≠ b) :
    Memory.read ((a, v) :: m) b = m.read b :=
  if_neg h

/-- From any address on, two canonical lists that read the same are equal: each one's first cell is the other's. -/
theorem Memory.eq_of_read_eq {lo lo' : Nat} {m m' : Memory} (h : Memory.wfFrom lo m = true)
    (h' : Memory.wfFrom lo' m' = true) (hr : ∀ a : Nat, m.read a = m'.read a) : m = m' := by
  induction m generalizing lo lo' m' with
  | nil =>
    cases m' with
    | nil => rfl
    | cons c' m' =>
      obtain ⟨b, u⟩ := c'
      obtain ⟨-, -, hu, -⟩ := Memory.wfFrom_cons.mp h'
      exact absurd ((Memory.read_cons_same b u m').symm.trans (hr b).symm) hu
  | cons c m ih =>
    obtain ⟨a, v⟩ := c
    obtain ⟨-, ha, hv, hm⟩ := Memory.wfFrom_cons.mp h
    cases m' with
    | nil => exact absurd ((Memory.read_cons_same a v m).symm.trans (hr a)) hv
    | cons c' m' =>
      obtain ⟨b, u⟩ := c'
      obtain ⟨-, hb, hu, hm'⟩ := Memory.wfFrom_cons.mp h'
      have hba : b ≤ a := Memory.le_of_read_ne (Memory.wfFrom_cons.mpr ⟨le_rfl, hb, hu, hm'⟩)
        (by rwa [← hr a, Memory.read_cons_same])
      have hab : a ≤ b := Memory.le_of_read_ne (Memory.wfFrom_cons.mpr ⟨le_rfl, ha, hv, hm⟩)
        (by rwa [hr b, Memory.read_cons_same])
      obtain rfl : a = b := le_antisymm hab hba
      have huv : v = u := by simpa using hr a
      have htail : ∀ x : Nat, Memory.read m x = Memory.read m' x := by
        intro x
        by_cases hx : a = x
        · subst hx
          rw [Memory.read_below hm (Nat.lt_succ_self a), Memory.read_below hm' (Nat.lt_succ_self a)]
        · rw [← Memory.read_cons_other v m hx, hr x, Memory.read_cons_other u m' hx]
      rw [huv, ih hm hm' htail]

/-- Settles O39, by `Memory.eq_of_read_eq` from address 0 on. -/
theorem canonicalMemoriesAreEqualByReads : Obligations.CanonicalMemoriesAreEqualByReads :=
  fun _ _ h h' hr => Memory.eq_of_read_eq h h' hr

end Sys2Proof.Machine
end

section
/-! PROOFS. The invariant of a session: it holds at reset, and each host operation and each move of the engine keeps it
(spec/70_reset_and_hazards.md R85 to R91, D11). -/

namespace Sys2Proof.Machine

/-- Settles O34: the fields of `State.reset` as R19 lists them. -/
theorem resetStateIsZeroedAndRunning : Obligations.ResetStateIsZeroedAndRunning := by
  refine ⟨fun i => ?_, fun _ => rfl, rfl, rfl, fun k => ?_, rfl⟩
  · simp [State.readReg, State.reset, Vector.get_eq_getElem]
  · simp [State.slot, State.reset, Vector.get_eq_getElem]

/-- In Loading the invariant says that nothing has run yet, and that memory is canonical. -/
theorem Session.inv_loading_iff {s : State} :
    (⟨.loading, s⟩ : Session).Inv ↔
      s.mem.wf = true ∧ s.pc = 0#16 ∧ s.sp = 0 ∧ s.status = .running ∧ ∀ k : SlotIdx, s.slot k = 0#16 := by
  constructor
  · rintro ⟨⟨-, -, hwf⟩, -, hload, -⟩
    exact ⟨hwf, hload rfl⟩
  · rintro ⟨hwf, hpc, hsp, hrun, hslots⟩
    refine ⟨⟨?_, fun k hk => ?_, hwf⟩, State.stopRecorded_of_running hrun, fun _ => ⟨hpc, hsp, hrun, hslots⟩, nofun⟩
    · rw [hpc]
      decide
    · rw [hsp] at hk
      exact absurd hk (Nat.not_lt_zero _)

/-- A core that meets its invariants may stand in Executing. -/
theorem Session.inv_executing {s : State} (hinv : s.Inv) (hstop : s.StopRecorded) :
    (⟨.executing, s⟩ : Session).Inv :=
  ⟨hinv, hstop, nofun, nofun⟩

/-- A core in which no step can be taken may stand in Stopped. -/
theorem Session.inv_stopped {s : State} (hinv : s.Inv) (hstop : s.StopRecorded) (hc : s.canStep = false) :
    (⟨.stopped, s⟩ : Session).Inv :=
  ⟨hinv, hstop, nofun, fun _ => hc⟩

theorem Session.inv_reset : Session.reset.Inv := by
  obtain ⟨-, -, hpc, hsp, hslots, hrun⟩ := resetStateIsZeroedAndRunning
  exact Session.inv_loading_iff.mpr ⟨rfl, hpc, Fin.ext hsp, hrun, hslots⟩

/-- Settles O35: the reset session meets its invariant, and the other two are parts of it. -/
theorem invariantHoldsAtReset : Obligations.InvariantHoldsAtReset := by
  obtain ⟨hinv, hstop, hphase⟩ := Session.inv_reset
  exact ⟨hinv, hstop, hinv, hstop, hphase⟩

/-! ## Host operations -/

theorem Session.readReg_snd (c : Session) (i : Nat) : (c.readReg i).2 = c := by
  unfold Session.readReg
  split <;> rfl

theorem Session.readMem_snd (c : Session) (a : Nat) : (c.readMem a).2 = c := by
  unfold Session.readMem
  split <;> rfl

/-- POKE_REG writes a register or refuses the index (R88). -/
theorem Session.pokeReg_snd_cases (c : Session) (i : Nat) (v : Byte) :
    (c.pokeReg i v).2 = c ∨ ∃ r, (c.pokeReg i v).2 = { c with core := c.core.writeReg r v } := by
  unfold Session.pokeReg
  split
  case isTrue hi => exact .inr ⟨⟨i, hi⟩, rfl⟩
  case isFalse => exact .inl rfl

/-- POKE_MEM writes a cell or refuses the address (R89). -/
theorem Session.pokeMem_snd_cases (c : Session) (a : Nat) (v : Byte) :
    (c.pokeMem a v).2 = c ∨ ∃ m, c.core.mem.writeCell? a v = some m ∧
      (c.pokeMem a v).2 = { c with core := { c.core with mem := m } } := by
  unfold Session.pokeMem
  split
  case h_1 m hm => exact .inr ⟨m, hm, rfl⟩
  case h_2 => exact .inl rfl

/-- Everything a host operation can do to a session: nothing, reset, and in Loading start the run, write one register or
write one existing cell (R87 to R94). -/
theorem Session.host_cases (c : Session) (op : HostOp) :
    (c.host op).2 = c ∨ (c.host op).2 = Session.reset ∨
    (c.phase = .loading ∧ (c.host op).2 = ⟨.executing, c.core⟩) ∨
    (c.phase = .loading ∧ ∃ i v, (c.host op).2 = ⟨.loading, c.core.writeReg i v⟩) ∨
    (c.phase = .loading ∧ ∃ a v m, c.core.mem.writeCell? a v = some m ∧
      (c.host op).2 = ⟨.loading, { c.core with mem := m }⟩) := by
  obtain ⟨phase, s⟩ := c
  cases phase with
  | executing => exact .inl rfl
  | stopped =>
    cases op with
    | reset => exact .inr (.inl rfl)
    | readReg i => exact .inl (Session.readReg_snd _ i)
    | readMem a => exact .inl (Session.readMem_snd _ a)
    | pokeReg | pokeMem | run | readPc | readStatus => exact .inl rfl
  | loading =>
    cases op with
    | reset => exact .inr (.inl rfl)
    | readReg i => exact .inl (Session.readReg_snd _ i)
    | readMem a => exact .inl (Session.readMem_snd _ a)
    | readPc | readStatus => exact .inl rfl
    | run => exact .inr (.inr (.inl ⟨rfl, rfl⟩))
    | pokeReg i v =>
      rcases Session.pokeReg_snd_cases ⟨.loading, s⟩ i v with e | ⟨r, e⟩
      · exact .inl e
      · exact .inr (.inr (.inr (.inl ⟨rfl, r, v, e⟩)))
    | pokeMem a v =>
      rcases Session.pokeMem_snd_cases ⟨.loading, s⟩ a v with e | ⟨m, hm, e⟩
      · exact .inl e
      · exact .inr (.inr (.inr (.inr ⟨rfl, a, v, m, hm, e⟩)))

/-- A write to one register of a fresh core leaves it fresh. -/
theorem Session.inv_writeReg {s : State} (i : RegIdx) (v : Byte) (h : (⟨.loading, s⟩ : Session).Inv) :
    (⟨.loading, s.writeReg i v⟩ : Session).Inv :=
  Session.inv_loading_iff.mpr (Session.inv_loading_iff.mp h)

/-- A write to one existing cell leaves a fresh core fresh: loading a program is no run. -/
theorem Session.inv_writeCell {s : State} {a : Nat} {v : Byte} {m : Memory} (hm : s.mem.writeCell? a v = some m)
    (h : (⟨.loading, s⟩ : Session).Inv) : (⟨.loading, { s with mem := m }⟩ : Session).Inv := by
  obtain ⟨hwf, hfresh⟩ := Session.inv_loading_iff.mp h
  exact Session.inv_loading_iff.mpr ⟨Memory.wf_writeCell? hwf hm, hfresh⟩

theorem Session.inv_host {c : Session} (op : HostOp) (h : c.Inv) : (c.host op).2.Inv := by
  rcases c.host_cases op with e | e | ⟨-, e⟩ | ⟨hload, i, v, e⟩ | ⟨hload, a, v, m, hm, e⟩ <;> rw [e]
  · exact h
  · exact Session.inv_reset
  · obtain ⟨hinv, hstop, -⟩ := h
    exact Session.inv_executing hinv hstop
  · exact Session.inv_writeReg i v (hload ▸ h)
  · exact Session.inv_writeCell hm (hload ▸ h)

/-! ## The engine's move -/

/-- Where the guard is false, a step answers a fault (R48, R91). -/
theorem step_of_canStep_false {s : State} (h : s.canStep = false) : ∃ r, step s = .fault r := by
  have hn : s.stopReason ≠ none := fun e => by simp [State.stopReason_eq_none_iff.mp e] at h
  obtain ⟨r, hr⟩ := Option.ne_none_iff_exists'.mp hn
  exact ⟨r, step_of_stopped hr⟩

/-- Everything the engine's move can do to a session: nothing outside Executing, a step where there is one, and the
change to Stopped where there is none (R90). -/
theorem Session.tick_cases (c : Session) :
    c.tick.1 = c ∨ (∃ t, step c.core = .next t ∧ c.tick.1 = ⟨.executing, t⟩) ∨
    (c.core.canStep = false ∧ c.tick.1 = ⟨.stopped, c.core⟩) := by
  obtain ⟨phase, s⟩ := c
  cases phase with
  | loading => exact .inl rfl
  | stopped => exact .inl rfl
  | executing =>
    rcases afterPass_cases s with ⟨hc, -⟩ | ⟨-, hstep⟩
    · obtain ⟨r, hr⟩ := step_of_canStep_false hc
      exact .inr (.inr ⟨hc, by simp only [Session.tick, hr]⟩)
    · exact .inr (.inl ⟨_, hstep, by simp only [Session.tick, hstep]⟩)

theorem Session.inv_tick {c : Session} (h : c.Inv) : c.tick.1.Inv := by
  rcases c.tick_cases with e | ⟨t, hstep, e⟩ | ⟨hc, e⟩ <;> rw [e]
  · exact h
  · obtain ⟨hinv, -⟩ := h
    exact Session.inv_executing (stepKeepsInvariant c.core t hinv hstep) (step_stopRecorded hstep)
  · obtain ⟨hinv, hstop, -⟩ := h
    exact Session.inv_stopped hinv hstop hc

/-- Settles O58, host operation by host operation and for the engine's move. -/
theorem sessionMovesKeepInvariant : Obligations.SessionMovesKeepInvariant :=
  fun _ h => ⟨fun op => Session.inv_host op h, Session.inv_tick h⟩

/-- Settles O38: the invariant holds at reset and every move keeps it; the guard bounds the fetch (R18 item 6). -/
theorem reachableSessionsMeetTheInvariant : Obligations.ReachableSessionsMeetTheInvariant := by
  intro c hreach
  refine ⟨reachable_keeps Session.inv_reset (fun _ op h => Session.inv_host op h) (fun _ h => Session.inv_tick h) hreach,
    fun hc => ?_⟩
  obtain ⟨-, hpc⟩ := State.canStep_iff.mp hc
  omega

end Sys2Proof.Machine
end

section
/-! PROOFS. Memory as the engine and the host see it (spec/20_memory.md R22 to R30; R89): what a fetch reads, that a step
reads nothing else and writes nothing, and that a word poked byte by byte is the word fetched. -/

namespace Sys2Proof.Machine

variable {s t : State}

/-! ## What a step reads of memory -/

/-- The fetch reads the bytes at `pc` and `pc + 1` and no other (R22, R25). -/
theorem State.fetchWord_withMem {m : Memory} (h0 : m.read s.pc.toNat = s.mem.read s.pc.toNat)
    (h1 : m.read (s.pc.toNat + 1) = s.mem.read (s.pc.toNat + 1)) :
    ({ s with mem := m } : State).fetchWord = s.fetchWord :=
  congrArg₂ wordOfBytes h0 h1

/-- A push neither reads nor writes memory. -/
theorem State.push?_withMem (s : State) (m : Memory) (v : Word) :
    ({ s with mem := m } : State).push? v = (s.push? v).map fun u => { u with mem := m } := by
  unfold State.push?
  split <;> rfl

/-- A pop neither reads nor writes memory. -/
theorem State.pop?_withMem (s : State) (m : Memory) :
    ({ s with mem := m } : State).pop? = s.pop?.map fun p => (p.1, { p.2 with mem := m }) := by
  obtain ⟨regs, mem, pc, stack, ⟨sp, hsp⟩, status⟩ := s
  cases sp <;> rfl

/-- Executing an instruction neither reads nor writes memory (R29): only the fetch reads it. -/
theorem exec_withMem {i : Instr} (m : Memory) (h : exec i s = .next t) :
    exec i { s with mem := m } = .next { t with mem := m } := by
  cases i with
  | call a =>
    simp only [exec, execCall, State.push?_withMem] at h ⊢
    cases hpush : s.push? s.pc with
    | none | some =>
      rw [hpush] at h
      cases h
      rfl
  | ret g =>
    simp only [exec, execRet, State.pop?_withMem] at h ⊢
    cases hpop : s.pop? with
    | none | some =>
      rw [hpop] at h
      cases h
      rfl
  | halt | nop | addReg | addImm | orReg | orImm | andReg | andImm | movReg | movImm | jump | unimpOp0 | unimpHigh =>
    cases h
    rfl

/-- Settles O32: guard and execution do not read memory, and the fetch reads the two bytes that agree. -/
theorem stepReadsOnlyTheFetchedBytes : Obligations.StepReadsOnlyTheFetchedBytes := by
  intro s t m h0 h1 hstep
  obtain ⟨hc, hexec⟩ := step_eq_next hstep
  have hc' : ({ s with mem := m } : State).canStep = true := hc
  rw [step_of_canStep hc', State.fetchWord_withMem h0 h1]
  exact exec_withMem m hexec

/-! ## No run writes memory -/

/-- No number of passes changes the list of cells (R29, R30). -/
theorem after_mem (s : State) (n : Nat) : (s.after n).mem = s.mem :=
  after_keeps (P := fun u => u.mem = s.mem) (fun _ _ h hstep => (step_mem hstep).trans h) rfl n

/-- Settles O40, by `after_mem`. -/
theorem memoryIsConstantDuringARun : Obligations.MemoryIsConstantDuringARun :=
  fun s n a => congrArg (Memory.read · a) (after_mem s n)

/-! ## What the host pokes is what the engine fetches -/

/-- In Loading a poke of a cell that exists writes it and changes nothing else (R89). -/
theorem Session.host_pokeMem_loading {c : Session} {a : Nat} (v : Byte) (hload : c.phase = .loading)
    (ha : a < Config.memSize) :
    (c.host (.pokeMem a v)).2 = { c with core := { c.core with mem := c.core.mem.write a v } } := by
  obtain ⟨phase, s⟩ := c
  obtain rfl : phase = .loading := hload
  have hw : s.mem.writeCell? a v = some (s.mem.write a v) := if_pos ha
  simp [Session.host, HostOp.allowedIn, Session.pokeMem, hw]

/-- Two pokes, high byte first, write a word (R23). -/
theorem Session.hostAll_pokeWord {c : Session} {a : Nat} (w : Word) (hload : c.phase = .loading)
    (ha : a + 1 < Config.memSize) :
    c.hostAll [.pokeMem a (highByte w), .pokeMem (a + 1) (lowByte w)] =
      { c with core := { c.core with mem := c.core.mem.writeWord a w } } := by
  unfold Session.hostAll
  rw [Session.host_pokeMem_loading _ hload (Nat.lt_of_succ_lt ha)]
  exact Session.host_pokeMem_loading _ hload ha

/-- Settles O55: the pokes write the word at `pc`, where a word written reads back. -/
theorem pokedWordIsFetched : Obligations.PokedWordIsFetched := by
  intro c w hload hwf hpc
  have ha : c.core.pc.toNat + 1 < Config.memSize := Nat.lt_of_le_of_lt (Nat.succ_le_succ hpc) (by decide)
  rw [Session.hostAll_pokeWord w hload ha]
  exact Memory.readWord_writeWord hwf (Nat.lt_of_succ_lt ha)

/-! ## The fetched word -/

/-- Settles O24: the word is the sum of its bytes, and a nibble of the word is a nibble of one of them. -/
theorem fetchIsBigEndian : Obligations.FetchIsBigEndian := by
  intro s
  have hword := s.fetchWord_toNat
  have hlo := (s.mem.read (s.pc.toNat + 1)).isLt
  rw [opField_toNat, xField_toNat, yField_toNat, zField_toNat]
  refine ⟨by omega, by omega, by omega, by omega, by omega, fun hc => ?_⟩
  obtain ⟨-, hpc⟩ := State.canStep_iff.mp hc
  omega

end Sys2Proof.Machine
end

section
/-! PROOFS. The encoding (spec/30_encoding.md): decoder and encoder are inverse to each other, the rows of the opcode
table, the bits an instruction ignores, the assembly lines. -/

namespace Sys2Proof

/-! ## A word taken apart is its parts (R35) -/

/-- A field that names a register names it by its number (R40). -/
@[simp] theorem regOf_fieldOf (r : RegIdx) : regOf (fieldOf r) = r :=
  Fin.ext (fieldOf_toNat r)

@[simp] theorem fieldOf_regOf (f : Nibble) : fieldOf (regOf f) = f :=
  BitVec.eq_of_toNat_eq (fieldOf_toNat (regOf f))

theorem wordOf_op (op x y z : Nibble) : (wordOf op x y z).toNat / 4096 = op.toNat := by
  rw [wordOf_toNat]
  omega

theorem wordOf12_op (op : Nibble) (low : BitVec 12) : (wordOf12 op low).toNat / 4096 = op.toNat := by
  rw [wordOf12_toNat]
  omega

@[simp] theorem xField_wordOf (op x y z : Nibble) : xField (wordOf op x y z) = x := by
  apply BitVec.eq_of_toNat_eq
  rw [xField_toNat, wordOf_toNat]
  omega

@[simp] theorem yField_wordOf (op x y z : Nibble) : yField (wordOf op x y z) = y := by
  apply BitVec.eq_of_toNat_eq
  rw [yField_toNat, wordOf_toNat]
  omega

@[simp] theorem zField_wordOf (op x y z : Nibble) : zField (wordOf op x y z) = z := by
  apply BitVec.eq_of_toNat_eq
  rw [zField_toNat, wordOf_toNat]
  omega

@[simp] theorem xyzOf_wordOf12 (op : Nibble) (low : BitVec 12) : xyzOf (wordOf12 op low) = low := by
  apply BitVec.eq_of_toNat_eq
  rw [xyzOf_toNat, wordOf12_toNat]
  omega

theorem low14_unimpHigh (p : BitVec 14) : (encode (.unimpHigh p)).extractLsb' 0 14 = p := by
  apply BitVec.eq_of_toNat_eq
  rw [low14_toNat, unimpHigh_toNat]
  omega

/-! ## A word is put together from its parts -/

variable {w w' : Word} {op : Nibble}

theorem wordOf_fields (h : w.toNat / 4096 = op.toNat) : wordOf op (xField w) (yField w) (zField w) = w := by
  apply BitVec.eq_of_toNat_eq
  rw [wordOf_toNat, xField_toNat, yField_toNat, zField_toNat]
  omega

theorem wordOf12_xyzOf (h : w.toNat / 4096 = op.toNat) : wordOf12 op (xyzOf w) = w := by
  apply BitVec.eq_of_toNat_eq
  rw [wordOf12_toNat, xyzOf_toNat]
  omega

/-- Opcodes 12 to 15 are the words whose two top bits are set. -/
theorem encode_unimpHigh_low14 (h : 12 ≤ w.toNat / 4096) : encode (.unimpHigh (w.extractLsb' 0 14)) = w := by
  have hw := w.isLt
  apply BitVec.eq_of_toNat_eq
  rw [unimpHigh_toNat, low14_toNat]
  omega

/-! ## Decoding inverts encoding -/

/-- The payload of a well-formed opcode-0 word keeps it apart from HALT and NOP, so it decodes by its opcode (R37). -/
theorem decodeWord_encode_unimpOp0 {p : BitVec 12} (hwf : (Instr.unimpOp0 p).wellFormed = true) :
    decodeWord (encode (.unimpOp0 p)) = .unimpOp0 p := by
  obtain ⟨-, hne⟩ := Laws.TableRow.unimpOp0 p hwf
  obtain ⟨h0, h1⟩ := hne rfl
  rw [decodeWord_unimpOp0 (wordOf12_op ..) h0 h1]
  exact congrArg Instr.unimpOp0 (xyzOf_wordOf12 ..)

/-- The decoder reads back every well-formed instruction: its word's opcode selects its row, and the fields of the word
are its operands (R35, R41). -/
theorem decodeWord_encode {i : Instr} (hwf : i.wellFormed = true) : decodeWord (encode i) = i := by
  cases i with
  | halt => rfl
  | nop => rfl
  | addReg x y z => simp [encode, decodeWord_addReg (wordOf_op 1#4 ..)]
  | addImm x n z => simp [encode, decodeWord_addImm (wordOf_op 2#4 ..)]
  | orReg x y z => simp [encode, decodeWord_orReg (wordOf_op 3#4 ..)]
  | orImm x n z => simp [encode, decodeWord_orImm (wordOf_op 4#4 ..)]
  | andReg x y z => simp [encode, decodeWord_andReg (wordOf_op 5#4 ..)]
  | andImm x n z => simp [encode, decodeWord_andImm (wordOf_op 6#4 ..)]
  | movReg x y g => simp [encode, decodeWord_movReg (wordOf_op 7#4 ..)]
  | movImm x n g => simp [encode, decodeWord_movImm (wordOf_op 8#4 ..)]
  | jump a => simp [encode, decodeWord_jump (wordOf12_op 9#4 ..)]
  | call a => simp [encode, decodeWord_call (wordOf12_op 10#4 ..)]
  | ret g => simp [encode, decodeWord_ret (wordOf12_op 11#4 ..)]
  | unimpOp0 p => exact decodeWord_encode_unimpOp0 hwf
  | unimpHigh p =>
    have hop : 12 ≤ (encode (.unimpHigh p)).toNat / 4096 := by
      rw [unimpHigh_toNat]
      omega
    rw [decodeWord_unimpHigh hop, low14_unimpHigh]

/-- The decoder takes the two bytes at the head of the list, high byte first (R34). -/
theorem decode_cons_cons (hi lo : Byte) (rest : List Byte) :
    decode (hi :: lo :: rest) = .ok (decodeWord (wordOfBytes hi lo), rest) := rfl

/-- The two bytes that memory holds of a word decode as the word, with nothing left over (R34). -/
theorem decode_bytesOfWord (w : Word) : decode (bytesOfWord w) = .ok (decodeWord w, []) := by
  rw [bytesOfWord, decode_cons_cons, wordOfBytes_high_low]

/-- Settles O20: both halves are `decodeWord_encode`, the second through the bytes of the word. -/
theorem decodeInvertsEncode : Obligations.DecodeInvertsEncode := by
  intro i hwf
  refine ⟨decodeWord_encode hwf, ?_⟩
  rw [decode_bytesOfWord, decodeWord_encode hwf]

/-! ## Encoding inverts decoding -/

/-- The opcode-0 payload of a word other than HALT and NOP is neither of the two that are set aside (R43). -/
theorem wellFormed_unimpOp0_xyzOf (h : w.toNat / 4096 = 0) (h0 : w ≠ 0x0000#16) (h1 : w ≠ 0x0111#16) :
    (Instr.unimpOp0 (xyzOf w)).wellFormed = true := by
  have hw : wordOf12 0#4 (xyzOf w) = w := wordOf12_xyzOf h
  have hp0 : xyzOf w ≠ 0x000#12 := fun hp => h0 (by rw [← hw, hp]; rfl)
  have hp1 : xyzOf w ≠ 0x111#12 := fun hp => h1 (by rw [← hw, hp]; rfl)
  simp [Instr.wellFormed, hp0, hp1]

/-- Settles O21: in each row the fields of the word, put together again with the row's opcode, are the word. -/
theorem encodeInvertsDecode : Obligations.EncodeInvertsDecode := by
  intro w
  rcases decodeWord_cases w with ⟨rfl, e⟩ | ⟨rfl, e⟩ | ⟨h, e⟩ | ⟨h, e⟩ | ⟨h, e⟩ | ⟨h, e⟩ | ⟨h, e⟩ | ⟨h, e⟩ |
    ⟨h, e⟩ | ⟨h, e⟩ | ⟨h, e⟩ | ⟨h, e⟩ | ⟨h, e⟩ | ⟨h, h0, h1, e⟩ | ⟨h, e⟩ <;> rw [e]
  iterate 2 (· exact ⟨rfl, rfl⟩)
  iterate 8 (· exact ⟨rfl, by simpa only [encode, fieldOf_regOf] using wordOf_fields h⟩)
  iterate 3 (· exact ⟨rfl, wordOf12_xyzOf h⟩)
  · exact ⟨wellFormed_unimpOp0_xyzOf h h0 h1, wordOf12_xyzOf h⟩
  · exact ⟨rfl, encode_unimpHigh_low14 h⟩

/-! ## The rows of the opcode table -/

/-- A value is a conditional when it is the branch taken, either way. -/
theorem eq_ite_of_imp {α : Type} {p : Prop} [Decidable p] {a b c : α} (hpos : p → a = b) (hneg : ¬ p → a = c) :
    a = if p then b else c :=
  (ite_eq_iff'.mpr ⟨fun h => (hpos h).symm, fun h => (hneg h).symm⟩).symm

/-- Settles O18: each branch of the chain fixes the opcode of the word, and the opcode its row. -/
theorem everyWordHasItsRow : Obligations.EveryWordHasItsRow := by
  intro w
  refine eq_ite_of_imp (fun h => congrArg (fun v => (decodeWord v).mnemonic) h) fun h0 => ?_
  refine eq_ite_of_imp (fun h => congrArg (fun v => (decodeWord v).mnemonic) h) fun h1 => ?_
  refine eq_ite_of_imp (fun h => congrArg Instr.mnemonic (decodeWord_unimpOp0 (by omega) h0 h1)) fun _ => ?_
  refine eq_ite_of_imp (fun h => congrArg Instr.mnemonic (decodeWord_addReg (by omega))) fun _ => ?_
  refine eq_ite_of_imp (fun h => congrArg Instr.mnemonic (decodeWord_addImm (by omega))) fun _ => ?_
  refine eq_ite_of_imp (fun h => congrArg Instr.mnemonic (decodeWord_orReg (by omega))) fun _ => ?_
  refine eq_ite_of_imp (fun h => congrArg Instr.mnemonic (decodeWord_orImm (by omega))) fun _ => ?_
  refine eq_ite_of_imp (fun h => congrArg Instr.mnemonic (decodeWord_andReg (by omega))) fun _ => ?_
  refine eq_ite_of_imp (fun h => congrArg Instr.mnemonic (decodeWord_andImm (by omega))) fun _ => ?_
  refine eq_ite_of_imp (fun h => congrArg Instr.mnemonic (decodeWord_movReg (by omega))) fun _ => ?_
  refine eq_ite_of_imp (fun h => congrArg Instr.mnemonic (decodeWord_movImm (by omega))) fun _ => ?_
  refine eq_ite_of_imp (fun h => congrArg Instr.mnemonic (decodeWord_jump (by omega))) fun _ => ?_
  refine eq_ite_of_imp (fun h => congrArg Instr.mnemonic (decodeWord_call (by omega))) fun _ => ?_
  refine eq_ite_of_imp (fun h => congrArg Instr.mnemonic (decodeWord_ret (by omega))) fun _ => ?_
  exact congrArg Instr.mnemonic (decodeWord_unimpHigh (by omega))

/-- The words without a handler are those of opcode 0 but for HALT and NOP, and those of opcode 12 to 15 (R43, D6). -/
theorem isUnimplemented_decodeWord_iff (w : Word) :
    (decodeWord w).isUnimplemented = true ↔
      (w.toNat < 0x1000 ∧ w ≠ 0x0000#16 ∧ w ≠ 0x0111#16) ∨ 0xC000 ≤ w.toNat := by
  rcases decodeWord_cases w with ⟨rfl, e⟩ | ⟨rfl, e⟩ | ⟨h, e⟩ | ⟨h, e⟩ | ⟨h, e⟩ | ⟨h, e⟩ | ⟨h, e⟩ | ⟨h, e⟩ |
    ⟨h, e⟩ | ⟨h, e⟩ | ⟨h, e⟩ | ⟨h, e⟩ | ⟨h, e⟩ | ⟨h, h0, h1, e⟩ | ⟨h, e⟩ <;> rw [e]
  iterate 2 (· decide)
  iterate 11 (· exact iff_of_false Bool.false_ne_true (by omega))
  · exact iff_of_true rfl (.inl ⟨by omega, h0, h1⟩)
  · exact iff_of_true rfl (.inr (by omega))

/-! ## Fields and bytes -/

/-- Shifting a field down and masking it is dividing and taking the remainder. -/
theorem shiftRight_and_fifteen (n k : Nat) : n >>> k &&& 0xF = n / 2 ^ k % 16 := by
  rw [Nat.shiftRight_eq_div_pow]
  exact Nat.and_two_pow_sub_one_eq_mod _ 4

/-- A word from its fields by the shifts of R35. -/
theorem wordOf_toNat_shifts (op x y z : Nibble) :
    (wordOf op x y z).toNat = op.toNat <<< 12 ||| x.toNat <<< 8 ||| y.toNat <<< 4 ||| z.toNat := by
  unfold wordOf
  rw [BitVec.toNat_append, BitVec.toNat_append, BitVec.toNat_append]
  simp only [Nat.shiftLeft_or_distrib, ← Nat.shiftLeft_add]

/-- Settles O16: each mask is a remainder, and the word is `wordOf` its fields. -/
theorem fieldsAreTheFourNibbles : Obligations.FieldsAreTheFourNibbles := by
  intro w
  have hz : w.toNat &&& 0xF = w.toNat % 16 := Nat.and_two_pow_sub_one_eq_mod _ 4
  have hword : wordOf (opField w) (xField w) (yField w) (zField w) = w := wordOf_fields (opField_toNat w).symm
  rw [← wordOf_toNat_shifts, hword, opField_toNat, xField_toNat, yField_toNat, zField_toNat, shiftRight_and_fifteen,
    shiftRight_and_fifteen, shiftRight_and_fifteen, hz]
  have hw := w.isLt
  exact ⟨by omega, rfl, rfl, rfl, rfl⟩

/-- Settles O17: the word is the two bytes side by side. -/
theorem decoderTakesTwoBytesBigEndian : Obligations.DecoderTakesTwoBytesBigEndian := by
  intro hi lo rest
  refine ⟨wordOfBytes hi lo, ?_, decode_cons_cons hi lo rest⟩
  rw [wordOfBytes_toNat, Nat.mul_comm]

/-! ## The ignored bits of a word (R42, D7) -/

/-- Words that agree in bits 15 to 4 have the same two middle fields. -/
theorem xField_yField_congr (h : w.toNat / 16 = w'.toNat / 16) : xField w = xField w' ∧ yField w = yField w' := by
  constructor
  · apply BitVec.eq_of_toNat_eq
    rw [xField_toNat, xField_toNat]
    omega
  · apply BitVec.eq_of_toNat_eq
    rw [yField_toNat, yField_toNat]
    omega

/-- A MOV is spelled by its opcode and its two middle fields. -/
theorem canonical_decodeWord_mov (hop : w.toNat / 4096 = 7 ∨ w.toNat / 4096 = 8) (h : w.toNat / 16 = w'.toNat / 16) :
    (decodeWord w).canonical = (decodeWord w').canonical := by
  obtain ⟨hx, hy⟩ := xField_yField_congr h
  rcases hop with hop | hop
  · rw [decodeWord_movReg hop, decodeWord_movReg (by omega), hx, hy]
    rfl
  · rw [decodeWord_movImm hop, decodeWord_movImm (by omega), hx, hy]
    rfl

/-- Every word of opcode 11 is spelled RET. -/
theorem canonical_decodeWord_ret (h : w.toNat / 4096 = 11) : (decodeWord w).canonical = .ret 0#12 := by
  rw [decodeWord_ret h]
  rfl

end Sys2Proof

namespace Sys2Proof.Machine

/-- No meaning reads the bits its instruction ignores (D7). -/
theorem exec_canonical (i : Instr) (s : State) : exec i.canonical s = exec i s := by
  cases i <;> rfl

/-- Instructions of one canonical spelling do the same in every state. -/
theorem exec_congr_canonical {i j : Instr} (h : i.canonical = j.canonical) (s : State) : exec i s = exec j s := by
  rw [← exec_canonical i, h, exec_canonical]

/-- Settles O22: such words have one canonical spelling. -/
theorem ignoredFieldsHaveNoEffect : Obligations.IgnoredFieldsHaveNoEffect :=
  ⟨fun _ _ s hop h => exec_congr_canonical (canonical_decodeWord_mov hop h) s,
   fun _ _ s h h' => exec_congr_canonical ((canonical_decodeWord_ret h).trans (canonical_decodeWord_ret h').symm) s⟩

/-- Settles O14: `isUnimplemented_decodeWord_iff`, and the advance of R51 for both no-op forms. -/
theorem unimplementedWordsAdvance : Obligations.UnimplementedWordsAdvance :=
  ⟨isUnimplemented_decodeWord_iff,
   fun _ s => ⟨s.advancePc, rfl, s.advancePc_pc, changesOnlyPc_advancePc s⟩,
   fun _ s => ⟨s.advancePc, rfl, s.advancePc_pc, changesOnlyPc_advancePc s⟩⟩

/-! ## Assembly lines (R46) -/

/-- A word without a handler, and a word with ignored bits set, is spelled by `.word`. -/
theorem disassemble_eq_word {w : Word}
    (h : ((decodeWord w).isUnimplemented || encode (decodeWord w).canonical != w) = true) :
    disassemble w = ⟨".word", [.raw w]⟩ :=
  if_pos h

/-- Every other word's line assembles to the canonical word of its instruction. -/
theorem assemble_disassemble_canonical {w : Word}
    (h : ¬ ((decodeWord w).isUnimplemented || encode (decodeWord w).canonical != w) = true) :
    assemble (disassemble w) = some (encode (decodeWord w).canonical) := by
  unfold disassemble
  rw [if_neg h]
  generalize decodeWord w = i at h
  cases i with
  | unimpOp0 p => exact absurd rfl h
  | unimpHigh p => exact absurd rfl h
  | _ => rfl

/-- Settles O23: a `.word` line holds the word itself, and a line with a mnemonic is written only where the canonical
word is the word. -/
theorem assemblyRoundTrip : Obligations.AssemblyRoundTrip := by
  intro w
  by_cases h : ((decodeWord w).isUnimplemented || encode (decodeWord w).canonical != w) = true
  · rw [disassemble_eq_word h]
    rfl
  · rw [assemble_disassemble_canonical h]
    simp only [Bool.or_eq_true, bne_iff_ne, not_or, not_not] at h
    obtain ⟨-, hcanon⟩ := h
    rw [hcanon]

end Sys2Proof.Machine
end

section
/-! PROOFS. The cycle: guard, execution of the decoded instruction, program counter (spec/40_cycle_and_reserved.md R48 to
R51). -/

namespace Sys2Proof.Machine

variable {s t : State}

/-! ## The guard -/

theorem exists_step_eq_next_iff_canStep : (∃ t, step s = .next t) ↔ s.canStep = true := by
  constructor
  · rintro ⟨t, hstep⟩
    exact (step_eq_next hstep).left
  · exact step_of_canStep_next

/-- A stopped engine stays where it is, whatever the number of passes (R48). -/
theorem after_of_stopped (h : s.canStep = false) (n : Nat) : s.after n = s := by
  induction n with
  | zero => rfl
  | succ n ih => rw [State.after_succ, afterPass_of_stopped h, ih]

/-- Settles O26: the guard decides whether there is a step, and a pass that finds it false changes nothing. -/
theorem stepExistsExactlyUnderTheGuard : Obligations.StepExistsExactlyUnderTheGuard := by
  intro s
  rw [← State.canStep_iff]
  refine ⟨exists_step_eq_next_iff_canStep, fun hguard n => ?_⟩
  rw [after_of_stopped (Bool.eq_false_iff.mpr hguard)]
  exact ⟨rfl, fun t hstep => hguard (step_eq_next hstep).left⟩

/-- Settles O25: the two bytes are those of the fetched word. -/
theorem stepRunsTheDecodedInstruction : Obligations.StepRunsTheDecodedInstruction := by
  intro s i hrun hpc hdec
  rw [decode_cons_cons] at hdec
  have hi : decodeWord s.fetchWord = i := congrArg Prod.fst (Except.ok.inj hdec)
  rw [step_of_canStep (State.canStep_iff.mpr ⟨hrun, hpc⟩), hi]

/-! ## CALL and RET by the depth of the stack -/

theorem exec_call_of_push? {u : State} (a : Addr) (h : s.push? s.pc = some u) :
    exec (.call a) s = .next (u.setPc (targetOperand a)) := by
  simp only [exec, execCall, h]

theorem exec_call_of_full (a : Addr) (h : s.sp.val = 16) : exec (.call a) s = .next (s.raise .stackOverflow) := by
  simp only [exec, execCall, State.push?_eq_none h]

theorem exec_ret_of_pop? {v : Word} {u : State} (g : BitVec 12) (h : s.pop? = some (v, u)) :
    exec (.ret g) s = .next (u.setPc (v + 2#16)) := by
  simp only [exec, execRet, h]

theorem exec_ret_of_empty (g : BitVec 12) (h : s.sp.val = 0) : exec (.ret g) s = .next (s.raise .stackUnderflow) := by
  simp only [exec, execRet, State.pop?_eq_none h]

/-! ## Where `pc` goes (R51), row by row -/

/-- A target address keeps its number as a program counter value (R39). -/
theorem targetOperand_toNat (a : Addr) : (targetOperand a).toNat = a.toNat :=
  BitVec.toNat_setWidth_of_le (by decide)

/-- A step is the execution of the instruction its word decodes to, so its next state is that instruction's. -/
theorem eq_of_step_of_exec {i : Instr} {u : State} (h : step s = .next t) (hi : decodeWord s.fetchWord = i)
    (hu : exec i s = .next u) : t = u := by
  obtain ⟨-, hexec⟩ := step_eq_next h
  rw [hi, hu] at hexec
  exact (Host.Outcome.next.inj hexec).symm

theorem step_pc_of_halt (h : step s = .next t) (hw : s.fetchWord = 0x0000#16) : t.pc = s.pc := by
  rw [eq_of_step_of_exec h (congrArg decodeWord hw) rfl]

theorem step_pc_of_jump (h : step s = .next t) (hop : s.fetchWord.toNat / 4096 = 9) :
    t.pc.toNat = s.fetchWord.toNat % 4096 := by
  rw [eq_of_step_of_exec h (decodeWord_jump hop) rfl, State.setPc_pc, targetOperand_toNat, xyzOf_toNat]

theorem step_pc_of_call (h : step s = .next t) (hop : s.fetchWord.toNat / 4096 = 10) (hsp : s.sp.val ≤ 15) :
    t.pc.toNat = s.fetchWord.toNat % 4096 := by
  obtain ⟨u, hu⟩ := State.push?_isSome (v := s.pc) (Nat.lt_succ_of_le hsp)
  rw [eq_of_step_of_exec h (decodeWord_call hop) (exec_call_of_push? _ hu), State.setPc_pc, targetOperand_toNat,
    xyzOf_toNat]

theorem step_pc_of_call_full (h : step s = .next t) (hop : s.fetchWord.toNat / 4096 = 10) (hsp : s.sp.val = 16) :
    t.pc = s.pc := by
  rw [eq_of_step_of_exec h (decodeWord_call hop) (exec_call_of_full _ hsp), State.raise_pc]

/-- RET resumes after the call that the top entry names (C1); the entry is active, so the sum does not wrap. -/
theorem step_pc_of_ret (hb : s.ActiveEntriesBounded) (h : step s = .next t) (hop : s.fetchWord.toNat / 4096 = 11)
    {k : SlotIdx} (hk : k.val + 1 = s.sp.val) : t.pc.toNat = (s.slot k).toNat + 2 := by
  obtain ⟨v, u, hu⟩ := State.pop?_isSome (s := s) (by omega)
  obtain ⟨hs, -, hv, -⟩ := State.pop?_eq_some hu
  have htop : (⟨s.sp.val - 1, hs⟩ : SlotIdx) = k := Fin.ext (by simp [← hk])
  rw [eq_of_step_of_exec h (decodeWord_ret hop) (exec_ret_of_pop? _ hu), State.setPc_pc, hv, htop,
    add_two_toNat (hb k (by omega))]

theorem step_pc_of_ret_empty (h : step s = .next t) (hop : s.fetchWord.toNat / 4096 = 11) (hsp : s.sp.val = 0) :
    t.pc = s.pc := by
  rw [eq_of_step_of_exec h (decodeWord_ret hop) (exec_ret_of_empty _ hsp), State.raise_pc]

/-- Every word but HALT's and those of opcodes 9 to 11 advances, from below 4095 and so without wrapping. -/
theorem step_pc_of_other (h : step s = .next t) (h0 : s.fetchWord ≠ 0x0000#16) (h9 : s.fetchWord.toNat / 4096 ≠ 9)
    (h10 : s.fetchWord.toNat / 4096 ≠ 10) (h11 : s.fetchWord.toNat / 4096 ≠ 11) :
    t.pc.toNat = s.pc.toNat + 2 := by
  obtain ⟨-, hpc, hcases⟩ := step_cases h
  have hadv : (s.pc + 2#16).toNat = s.pc.toNat + 2 := add_two_toNat (by omega)
  rcases hcases with ⟨hw, -⟩ | ⟨-, -, rfl⟩ | ⟨-, -, v, rfl⟩ | ⟨-, -, v, rfl⟩ | ⟨hop, -⟩ | ⟨hop, -⟩ | ⟨hop, -⟩ |
    ⟨hop, -⟩ | ⟨hop, -⟩
  · exact absurd hw h0
  iterate 3 (· exact hadv)
  · exact absurd hop h9
  iterate 2 (· exact absurd hop h10)
  iterate 2 (· exact absurd hop h11)

/-- Settles O28, row by row of R51's table. -/
theorem pcMovesByTheFetchedWord : Obligations.PcMovesByTheFetchedWord := fun _ _ hb h =>
  ⟨step_pc_of_halt h, step_pc_of_jump h, step_pc_of_call h, step_pc_of_call_full h,
    fun hop _ hk => step_pc_of_ret hb h hop hk, step_pc_of_ret_empty h, step_pc_of_other h⟩

end Sys2Proof.Machine
end

section
/-! PROOFS. HALT, NOP and the event of the unimplemented words (spec/40_cycle_and_reserved.md R53 to R56). -/

namespace Sys2Proof

/-- A well-formed instruction has one word (R35, R41). -/
theorem decodeWord_eq_iff {i : Instr} (hwf : i.wellFormed = true) (w : Word) : decodeWord w = i ↔ w = encode i := by
  constructor
  · rintro rfl
    obtain ⟨-, henc⟩ := encodeInvertsDecode w
    exact henc.symm
  · rintro rfl
    exact decodeWord_encode hwf

end Sys2Proof

namespace Sys2Proof.Machine

variable {s t : State}

/-! ## HALT -/

/-- HALT sets the run state and nothing else (R53). -/
theorem exec_halt (s : State) : exec .halt s = .next { s with status := .halted } := rfl

theorem changesOnlyStatus_withStatus (s : State) (st : Status) : ChangesOnlyStatus s { s with status := st } :=
  ⟨fun _ => rfl, fun _ => rfl, ⟨fun _ => rfl, rfl⟩, rfl⟩

/-- Only the word 0x0000 brings the engine to Halted. -/
theorem fetchWord_of_step_halted (h : step s = .next t) (hhalt : t.status = .halted) : s.fetchWord = 0x0000#16 := by
  rcases step_status_cases h with ⟨hrun, -⟩ | ⟨h0, -⟩ | ⟨-, -, rfl⟩ | ⟨-, -, rfl⟩
  · cases hrun.symm.trans hhalt
  · exact h0
  · cases hhalt
  · cases hhalt

/-- Memory that nothing has written holds HALT words (R53 (b)). -/
theorem fetchWord_of_mem_nil (h : s.mem = []) : s.fetchWord = 0x0000#16 := by
  rw [State.fetchWord, h, Memory.readWord, Memory.read, Memory.read]
  rfl

/-- Settles O1: HALT's one word, its effect, and where it can come from. -/
theorem haltStopsWithoutAdvancing : Obligations.HaltStopsWithoutAdvancing :=
  ⟨decodeWord_eq_iff rfl, fun s => ⟨_, exec_halt s, rfl, changesOnlyStatus_withStatus s .halted⟩,
    fun _ _ => fetchWord_of_step_halted, fun _ => fetchWord_of_mem_nil⟩

/-! ## The event -/

/-- The event of a step that is taken, by the instruction decoded (R56, D10). -/
theorem State.stepEvent_eq_some_iff {e : Event} :
    s.stepEvent = some e ↔
      s.canStep = true ∧ (decodeWord s.fetchWord).isUnimplemented = true ∧ e = .unimpl s.pc s.fetchWord := by
  rw [State.stepEvent, Option.ite_none_right_eq_some, Bool.and_eq_true, and_assoc, Option.some_inj, eq_comm (b := e)]

/-- Settles O15: the guard of R48 and the words without a handler. -/
theorem eventExactlyForUnimplementedWords : Obligations.EventExactlyForUnimplementedWords := by
  intro s e
  rw [State.stepEvent_eq_some_iff, State.canStep_iff, isUnimplemented_decodeWord_iff]

/-- An instruction with a handler emits no event. -/
theorem State.stepEvent_eq_none (h : (decodeWord s.fetchWord).isUnimplemented = false) : s.stepEvent = none := by
  refine Option.eq_none_iff_forall_ne_some.mpr fun e he => ?_
  obtain ⟨-, hu, -⟩ := State.stepEvent_eq_some_iff.mp he
  exact Bool.false_ne_true (h.symm.trans hu)

/-! ## NOP -/

/-- NOP is the advance of R51 and nothing else (R54). -/
theorem exec_nop (s : State) : exec .nop s = .next s.advancePc := rfl

/-- A running engine past the last word has run off the end (R91). -/
theorem State.stopReason_offTheEnd (hrun : s.status = .running) (hpc : 4095 ≤ s.pc.toNat) :
    s.stopReason = some .offTheEnd := by
  rw [State.stopReason, hrun]
  exact if_neg (Nat.not_lt.mpr hpc)

/-- An advance from the last address a step is taken at leads off the end. -/
theorem State.advancePc_offTheEnd (hrun : s.status = .running) (hpc : s.pc = 4094#16) :
    s.advancePc.pc = 4096#16 ∧ s.advancePc.stopReason = some .offTheEnd := by
  have hend : s.advancePc.pc = 4096#16 := by
    rw [State.advancePc_pc, hpc]
    rfl
  exact ⟨hend, State.stopReason_offTheEnd hrun (by rw [hend]; decide)⟩

/-- Settles O2: NOP's one word, its advance, and no event. -/
theorem nopOnlyAdvances : Obligations.NopOnlyAdvances :=
  ⟨decodeWord_eq_iff rfl,
    fun s => ⟨_, exec_nop s, s.advancePc_pc, changesOnlyPc_advancePc s, State.advancePc_offTheEnd⟩,
    fun _ hw => State.stepEvent_eq_none (by rw [hw]; rfl)⟩

end Sys2Proof.Machine
end

section
/-! PROOFS. ADD, OR and AND in register and immediate forms (spec/41_arith_logic.md R57 to R63): the word of each form
as a number, the state it leaves, the result it writes. -/

namespace Sys2Proof

/-! ## The words of the three-operand forms as numbers (R35, R41) -/

variable {i : Instr} {op : Nibble}

/-- An instruction whose word has these four fields is decoded from the number they make (R35). -/
theorem decodeWord_ofNat_fields {f g h : Nibble} (hwf : i.wellFormed = true) (henc : encode i = wordOf op f g h) :
    decodeWord (BitVec.ofNat 16 (op.toNat * 4096 + 256 * f.toNat + 16 * g.toNat + h.toNat)) = i := by
  have hword : BitVec.ofNat 16 (op.toNat * 4096 + 256 * f.toNat + 16 * g.toNat + h.toNat) = encode i := by
    rw [henc, Nat.mul_comm 256, Nat.mul_comm 16, ← wordOf_toNat, BitVec.ofNat_toNat, BitVec.setWidth_eq]
  exact (decodeWord_eq_iff hwf _).mpr hword

/-- The register forms: three register numbers below the opcode. -/
theorem decodeWord_ofNat_regForm {x y z : RegIdx} (hwf : i.wellFormed = true)
    (henc : encode i = wordOf op (fieldOf x) (fieldOf y) (fieldOf z)) :
    decodeWord (BitVec.ofNat 16 (op.toNat * 4096 + 256 * x.val + 16 * y.val + z.val)) = i := by
  simpa only [fieldOf_toNat] using decodeWord_ofNat_fields hwf henc

/-- The immediate forms: field y is the immediate. -/
theorem decodeWord_ofNat_immForm {x z : RegIdx} {n : Nibble} (hwf : i.wellFormed = true)
    (henc : encode i = wordOf op (fieldOf x) n (fieldOf z)) :
    decodeWord (BitVec.ofNat 16 (op.toNat * 4096 + 256 * x.val + 16 * n.toNat + z.val)) = i := by
  simpa only [fieldOf_toNat] using decodeWord_ofNat_fields hwf henc

end Sys2Proof

namespace Sys2Proof.Machine

/-! ## The state the six instructions leave (R57 item 6) -/

@[simp] theorem State.readReg_writeResult_same (s : State) (z : RegIdx) (v : Byte) :
    (s.writeResult z v).readReg z = v :=
  State.readReg_writeReg_same s z v

@[simp] theorem State.writeResult_pc (s : State) (z : RegIdx) (v : Byte) : (s.writeResult z v).pc = s.pc + 2#16 := rfl

theorem changesOnlyRegAndPc_writeResult (s : State) (z : RegIdx) (v : Byte) :
    ChangesOnlyRegAndPc z s (s.writeResult z v) := by
  obtain ⟨hregs, hmem, hstack, hstatus⟩ := changesOnlyPc_advancePc (s.writeReg z v)
  exact ⟨fun j hj => (hregs j).trans (State.readReg_writeReg_other s v hj), hmem, hstack, hstatus⟩

/-! ## The meaning of each instruction, both sources read before the step (R52) -/

theorem exec_addReg (x y z : RegIdx) (s : State) :
    exec (.addReg x y z) s = .next (s.writeResult z (aluAdd (s.readReg x) (s.readReg y))) := rfl

theorem exec_addImm (x : RegIdx) (n : Nibble) (z : RegIdx) (s : State) :
    exec (.addImm x n z) s = .next (s.writeResult z (aluAdd (s.readReg x) (immOperand n))) := rfl

theorem exec_orReg (x y z : RegIdx) (s : State) :
    exec (.orReg x y z) s = .next (s.writeResult z (aluOr (s.readReg x) (s.readReg y))) := rfl

theorem exec_orImm (x : RegIdx) (n : Nibble) (z : RegIdx) (s : State) :
    exec (.orImm x n z) s = .next (s.writeResult z (aluOr (s.readReg x) (immOperand n))) := rfl

theorem exec_andReg (x y z : RegIdx) (s : State) :
    exec (.andReg x y z) s = .next (s.writeResult z (aluAnd (s.readReg x) (s.readReg y))) := rfl

theorem exec_andImm (x : RegIdx) (n : Nibble) (z : RegIdx) (s : State) :
    exec (.andImm x n z) s = .next (s.writeResult z (aluAnd (s.readReg x) (immOperand n))) := rfl

/-! ## Results, bit by bit -/

/-- The immediate is the number its nibble is (R38, D17). -/
@[simp] theorem immOperand_toNat (n : Nibble) : (immOperand n).toNat = n.toNat :=
  BitVec.toNat_setWidth_of_le (by decide)

/-- Zero extension: the immediate has its nibble's bits and no others (R38). -/
@[simp] theorem immOperand_getLsbD (n : Nibble) (k : Nat) : (immOperand n).getLsbD k = n.getLsbD k := by
  rw [← BitVec.testBit_toNat, immOperand_toNat, BitVec.testBit_toNat]

@[simp] theorem aluOr_getLsbD (a b : Byte) (k : Nat) : (aluOr a b).getLsbD k = (a.getLsbD k || b.getLsbD k) :=
  BitVec.getLsbD_or

@[simp] theorem aluAnd_getLsbD (a b : Byte) (k : Nat) : (aluAnd a b).getLsbD k = (a.getLsbD k && b.getLsbD k) :=
  BitVec.getLsbD_and

/-- Or-ing an immediate leaves the high nibble: the immediate's bits there are zero (R61). -/
theorem aluOr_immOperand_getLsbD_high (a : Byte) (n : Nibble) {k : Nat} (hk : 4 ≤ k) :
    (aluOr a (immOperand n)).getLsbD k = a.getLsbD k := by
  rw [aluOr_getLsbD, immOperand_getLsbD, BitVec.getLsbD_of_ge n k hk, Bool.or_false]

/-- And-ing with an immediate leaves at most the immediate (R63). -/
theorem aluAnd_immOperand_toNat_le (a : Byte) (n : Nibble) : (aluAnd a (immOperand n)).toNat ≤ n.toNat := by
  rw [aluAnd, BitVec.toNat_and, immOperand_toNat]
  exact Nat.and_le_right

/-! ## The six statements -/

/-- Settles O3: the sum of `aluAdd_toNat`, written to the destination. -/
theorem addRegWrapsIntoDestination : Obligations.AddRegWrapsIntoDestination := fun x y z =>
  ⟨decodeWord_ofNat_regForm (op := 1#4) rfl rfl, fun s =>
    ⟨_, exec_addReg x y z s, by rw [State.readReg_writeResult_same, aluAdd_toNat],
      State.writeResult_pc .., changesOnlyRegAndPc_writeResult ..⟩⟩

/-- Settles O4: the sum with the zero-extended immediate. -/
theorem addImmWrapsIntoDestination : Obligations.AddImmWrapsIntoDestination := fun x n z =>
  ⟨decodeWord_ofNat_immForm (op := 2#4) rfl rfl, fun s =>
    ⟨_, exec_addImm x n z s, by rw [State.readReg_writeResult_same, aluAdd_toNat, immOperand_toNat],
      State.writeResult_pc .., changesOnlyRegAndPc_writeResult ..⟩⟩

/-- Settles O5: the bits of `aluOr_getLsbD`, written to the destination. -/
theorem orRegIsBitwise : Obligations.OrRegIsBitwise := fun x y z =>
  ⟨decodeWord_ofNat_regForm (op := 3#4) rfl rfl, fun s =>
    ⟨_, exec_orReg x y z s, fun k => by rw [State.readReg_writeResult_same, aluOr_getLsbD],
      State.writeResult_pc .., changesOnlyRegAndPc_writeResult ..⟩⟩

/-- Settles O6: above bit 3 the immediate has no bits. -/
theorem orImmKeepsHighNibble : Obligations.OrImmKeepsHighNibble := fun x n z =>
  ⟨decodeWord_ofNat_immForm (op := 4#4) rfl rfl, fun s =>
    ⟨_, exec_orImm x n z s, fun k _ => by rw [State.readReg_writeResult_same, aluOr_getLsbD, immOperand_getLsbD],
      fun k hk => by rw [State.readReg_writeResult_same, aluOr_immOperand_getLsbD_high _ _ hk],
      State.writeResult_pc .., changesOnlyRegAndPc_writeResult ..⟩⟩

/-- Settles O7: the bits of `aluAnd_getLsbD`, written to the destination. -/
theorem andRegIsBitwise : Obligations.AndRegIsBitwise := fun x y z =>
  ⟨decodeWord_ofNat_regForm (op := 5#4) rfl rfl, fun s =>
    ⟨_, exec_andReg x y z s, fun k => by rw [State.readReg_writeResult_same, aluAnd_getLsbD],
      State.writeResult_pc .., changesOnlyRegAndPc_writeResult ..⟩⟩

/-- Settles O8: the result is at most the immediate, which is below 16. -/
theorem andImmClearsHighNibble : Obligations.AndImmClearsHighNibble := fun x n z =>
  ⟨decodeWord_ofNat_immForm (op := 6#4) rfl rfl, fun s =>
    ⟨_, exec_andImm x n z s, fun k _ => by rw [State.readReg_writeResult_same, aluAnd_getLsbD, immOperand_getLsbD],
      by rw [State.readReg_writeResult_same]; exact (aluAnd_immOperand_toNat_le ..).trans (Nat.le_of_lt_succ n.isLt),
      State.writeResult_pc .., changesOnlyRegAndPc_writeResult ..⟩⟩

end Sys2Proof.Machine
end

section
/-! PROOFS. MOV-REG and MOV-IMM (spec/42_move.md R64, R65): both write one register and advance, so the state they leave
is a `writeResult`; that a second execution keeps the registers is that it writes the value already there. -/

namespace Sys2Proof.Machine

/-! ## The meaning of each instruction, the ignored field left out (D7) -/

theorem exec_movReg (x y : RegIdx) (g : Nibble) (s : State) :
    exec (.movReg x y g) s = .next (s.writeResult x (s.readReg y)) := rfl

theorem exec_movImm (x : RegIdx) (n g : Nibble) (s : State) :
    exec (.movImm x n g) s = .next (s.writeResult x (immOperand n)) := rfl

/-! ## Idempotence -/

/-- Writing the value a register already has changes no register. -/
theorem keepsRegs_writeResult {s : State} {z : RegIdx} {v : Byte} (h : s.readReg z = v) :
    KeepsRegs s (s.writeResult z v) := by
  intro j
  by_cases hj : j = z
  · rw [hj, State.readReg_writeResult_same, h]
  · obtain ⟨hregs, -⟩ := changesOnlyRegAndPc_writeResult s z v
    exact hregs j hj

/-- A copied register reads as before, also where it is its own destination (R64 (a), (c)). -/
theorem State.readReg_writeResult_source (s : State) (x y : RegIdx) :
    (s.writeResult x (s.readReg y)).readReg y = s.readReg y := by
  by_cases hy : y = x
  · rw [hy, State.readReg_writeResult_same]
  · obtain ⟨hregs, -⟩ := changesOnlyRegAndPc_writeResult s x (s.readReg y)
    exact hregs y hy

/-- An instruction that writes a register the value it already has keeps every register. -/
theorem keepsRegs_of_exec_writeResult {i : Instr} {s u : State} {z : RegIdx} {v : Byte}
    (hi : exec i s = .next (s.writeResult z v)) (hv : s.readReg z = v) (hu : exec i s = .next u) : KeepsRegs s u := by
  rw [hi] at hu
  cases hu
  exact keepsRegs_writeResult hv

/-- The register MOV-REG wrote holds what its source still holds, so a second one keeps the registers (R64 (b)). -/
theorem keepsRegs_of_exec_movReg_again {s u : State} {x y : RegIdx} {g : Nibble}
    (hu : exec (.movReg x y g) (s.writeResult x (s.readReg y)) = .next u) :
    KeepsRegs (s.writeResult x (s.readReg y)) u :=
  keepsRegs_of_exec_writeResult (exec_movReg ..)
    ((State.readReg_writeResult_same ..).trans (State.readReg_writeResult_source ..).symm) hu

/-- The register MOV-IMM wrote holds the immediate, so a second one keeps the registers (R65 (c)). -/
theorem keepsRegs_of_exec_movImm_again {s u : State} {x : RegIdx} {n g : Nibble}
    (hu : exec (.movImm x n g) (s.writeResult x (immOperand n)) = .next u) :
    KeepsRegs (s.writeResult x (immOperand n)) u :=
  keepsRegs_of_exec_writeResult (exec_movImm ..) (State.readReg_writeResult_same ..) hu

/-! ## The two statements -/

/-- Settles O9: the word of the register form with `g` in field z, the copy, and its idempotence. -/
theorem movRegCopiesIntoFirstOperand : Obligations.MovRegCopiesIntoFirstOperand := fun x y g =>
  ⟨decodeWord_ofNat_regForm (op := 7#4) (z := regOf g) rfl (by rw [fieldOf_regOf, encode]), fun s =>
    ⟨_, exec_movReg x y g s, State.readReg_writeResult_same .., State.writeResult_pc ..,
      changesOnlyRegAndPc_writeResult .., fun _ => keepsRegs_of_exec_movReg_again⟩⟩

/-- Settles O10: the word of the immediate form with `g` in field z, the immediate's number, and idempotence. -/
theorem movImmLoadsFourBits : Obligations.MovImmLoadsFourBits := fun x n g =>
  ⟨decodeWord_ofNat_immForm (op := 8#4) (z := regOf g) rfl (by rw [fieldOf_regOf, encode]), fun s =>
    ⟨_, exec_movImm x n g s, by rw [State.readReg_writeResult_same, immOperand_toNat], State.writeResult_pc ..,
      changesOnlyRegAndPc_writeResult .., fun _ => keepsRegs_of_exec_movImm_again⟩⟩

end Sys2Proof.Machine
end

section
/-! PROOFS. JUMP, CALL and RET (spec/43_control_transfer.md R66 to R69): the words of the three, the state each leaves,
and the return from a balanced callee, which rests on this: a step writes no slot that is active before it. -/

namespace Sys2Proof

/-- An instruction whose word has this opcode and these low 12 bits is decoded from the number they make (R35, R39). -/
theorem decodeWord_ofNat_wordOf12 {i : Instr} {op : Nibble} {low : BitVec 12} (hwf : i.wellFormed = true)
    (henc : encode i = wordOf12 op low) : decodeWord (BitVec.ofNat 16 (op.toNat * 4096 + low.toNat)) = i := by
  have hword : BitVec.ofNat 16 (op.toNat * 4096 + low.toNat) = encode i := by
    rw [henc, ← wordOf12_toNat, BitVec.ofNat_toNat, BitVec.setWidth_eq]
  exact (decodeWord_eq_iff hwf _).mpr hword

end Sys2Proof

namespace Sys2Proof.Machine

variable {s t : State}

/-! ## JUMP -/

/-- JUMP sets the program counter to its target and does nothing else (R66). -/
theorem exec_jump (a : Addr) (s : State) : exec (.jump a) s = .next (s.setPc (targetOperand a)) := rfl

theorem changesOnlyPc_setPc (s : State) (w : Word) : ChangesOnlyPc s (s.setPc w) :=
  ⟨State.setPc_readReg s w, fun a => by rw [State.setPc_mem],
    ⟨State.slot_congr (State.setPc_stack s w), State.setPc_sp s w⟩, State.setPc_status s w⟩

/-- Setting the program counter to the value it has changes nothing. -/
theorem State.setPc_eq_self {w : Word} (h : s.pc.toNat = w.toNat) : s.setPc w = s := by
  obtain rfl : s.pc = w := BitVec.eq_of_toNat_eq h
  rfl

/-- Settles O11: the target keeps its number as a program counter value, 4095 is past the last word. -/
theorem jumpSetsPcToTarget : Obligations.JumpSetsPcToTarget := fun a =>
  ⟨decodeWord_ofNat_wordOf12 (op := 9#4) rfl rfl, fun s =>
    ⟨_, exec_jump a s, targetOperand_toNat a, changesOnlyPc_setPc s _,
      fun hself => State.setPc_eq_self (hself.trans (targetOperand_toNat a).symm),
      fun hrun hend => State.stopReason_offTheEnd hrun ((targetOperand_toNat a).trans hend).ge⟩⟩

/-! ## CALL and RET -/

/-- CALL with room on the stack pushes its own address and goes to its target (R67). -/
theorem exec_call_of_room (a : Addr) (h : s.sp.val ≤ 15) :
    ∃ t, exec (.call a) s = .next t ∧
      (∀ k : SlotIdx, t.slot k = if k.val = s.sp.val then s.pc else s.slot k) ∧
      t.sp.val = s.sp.val + 1 ∧ t.pc.toNat = a.toNat ∧ KeepsRegs s t ∧ KeepsMem s t ∧ t.status = s.status := by
  obtain ⟨u, hu⟩ := State.push?_isSome (v := s.pc) (Nat.lt_succ_of_le h)
  obtain ⟨hs, htop, hother, hsp, hregs, hmem, -, hstatus⟩ := State.push?_eq_some hu
  refine ⟨_, exec_call_of_push? a hu, fun k => ?_, hsp, targetOperand_toNat a, State.readReg_congr hregs,
    fun b => congrArg (Memory.read · b) hmem, hstatus⟩
  split
  case isTrue hk =>
    obtain rfl : k = ⟨s.sp.val, hs⟩ := Fin.ext hk
    exact htop
  case isFalse hk => exact hother k hk

/-- RET with an entry on the stack uncounts the top one and goes on 2 after the address it holds (R68, C1). -/
theorem exec_ret_of_entry (g : BitVec 12) (h : 1 ≤ s.sp.val) :
    ∃ t, exec (.ret g) s = .next t ∧ t.sp.val + 1 = s.sp.val ∧
      (∀ k : SlotIdx, k.val + 1 = s.sp.val → t.pc = s.slot k + 2#16) ∧ (∀ k : SlotIdx, t.slot k = s.slot k) ∧
      KeepsRegs s t ∧ KeepsMem s t ∧ t.status = s.status := by
  obtain ⟨v, u, hu⟩ := State.pop?_isSome h
  obtain ⟨hs, -, rfl, hsp, hstack, hregs, hmem, -, hstatus⟩ := State.pop?_eq_some hu
  refine ⟨_, exec_ret_of_pop? g hu, ?_, fun k hk => ?_, State.slot_congr hstack, State.readReg_congr hregs,
    fun b => congrArg (Memory.read · b) hmem, hstatus⟩
  · rw [State.setPc_sp, hsp]
    omega
  · obtain rfl : k = ⟨s.sp.val - 1, hs⟩ := Fin.ext (Nat.eq_sub_of_add_eq hk)
    exact State.setPc_pc ..

/-- Settles O12: the push of `exec_call_of_room`, or the fault of a full stack. -/
theorem callPushesOwnAddressOrOverflows : Obligations.CallPushesOwnAddressOrOverflows := fun a =>
  ⟨decodeWord_ofNat_wordOf12 (op := 10#4) rfl rfl, fun _ h => exec_call_of_room a h,
    fun s h => ⟨_, exec_call_of_full a h, rfl, changesOnlyStatus_withStatus s _⟩⟩

/-- Settles O13: the pop of `exec_ret_of_entry`, or the fault of an empty stack. -/
theorem retResumesAfterCallOrUnderflows : Obligations.RetResumesAfterCallOrUnderflows := fun g =>
  ⟨decodeWord_ofNat_wordOf12 (op := 11#4) rfl rfl, fun _ h => exec_ret_of_entry g h,
    fun s h => ⟨_, exec_ret_of_empty g h, rfl, changesOnlyStatus_withStatus s _⟩⟩

/-! ## A balanced callee (R69) -/

/-- A pass under the guard is the execution of the decoded instruction. -/
theorem afterPass_of_exec {i : Instr} (hc : s.canStep = true) (hi : decodeWord s.fetchWord = i)
    (hexec : exec i s = .next t) : s.afterPass = t :=
  afterPass_of_next (by rw [step_of_canStep hc, hi, hexec])

/-- A pass keeps every active slot: only a push writes a slot, the one above them (R13). -/
theorem afterPass_slot_of_active {k : SlotIdx} (hk : k.val < s.sp.val) : s.afterPass.slot k = s.slot k := by
  rcases afterPass_cases s with ⟨-, e⟩ | ⟨-, hstep⟩
  · rw [e]
  · rcases step_stack_cases hstep with ⟨hstack, -⟩ | ⟨-, -, -, hother⟩ | ⟨-, -, hstack⟩
    · exact State.slot_congr hstack k
    · exact hother k hk.ne
    · exact State.slot_congr hstack k

/-- A slot that is active before each of `n` passes holds its value after them. -/
theorem after_slot_of_active {k : SlotIdx} {n : Nat} (hk : ∀ j, j < n → k.val < (s.after j).sp.val) :
    (s.after n).slot k = s.slot k := by
  induction n generalizing s with
  | zero => rfl
  | succ n ih =>
    rw [State.after_succ, ih fun j hj => hk (j + 1) (Nat.succ_lt_succ hj)]
    exact afterPass_slot_of_active (hk 0 n.succ_pos)

/-- A pass over a CALL with room leaves the call's own address in the slot it makes active. -/
theorem afterPass_slot_of_call {k : SlotIdx} (hc : s.canStep = true) (hop : s.fetchWord.toNat / 4096 = 10)
    (hk : k.val = s.sp.val) : s.afterPass.slot k = s.pc := by
  obtain ⟨t, hexec, hslot, -⟩ := exec_call_of_room (xyzOf s.fetchWord) (hk ▸ Nat.le_of_lt_succ k.isLt)
  rw [afterPass_of_exec hc (decodeWord_call hop) hexec, hslot k, if_pos hk]

/-- A pass over a RET goes on 2 after the address in the top slot, which is active no more. -/
theorem afterPass_of_ret {k : SlotIdx} (hc : s.canStep = true) (hop : s.fetchWord.toNat / 4096 = 11)
    (hk : k.val + 1 = s.sp.val) : s.afterPass.pc = s.slot k + 2#16 ∧ s.afterPass.sp.val = k.val := by
  obtain ⟨t, hexec, hsp, hpc, -⟩ := exec_ret_of_entry (s := s) (xyzOf s.fetchWord) (hk ▸ Nat.le_add_left 1 k.val)
  rw [afterPass_of_exec hc (decodeWord_ret hop) hexec]
  exact ⟨hpc k hk, by omega⟩

/-- Settles O41: the slot that the CALL filled is active all through the callee, so the RET pops the CALL's address. -/
theorem balancedCalleeReturnsAfterTheCall : Obligations.BalancedCalleeReturnsAfterTheCall := by
  intro s n hcall hop hroom hdepth hsp hret hopRet
  obtain ⟨k, hk⟩ : ∃ k : SlotIdx, k.val = s.sp.val := ⟨⟨s.sp.val, Nat.lt_succ_of_le hroom⟩, rfl⟩
  have hcallee (j : Nat) : s.after (1 + j) = s.afterPass.after j := State.after_add s 1 j
  have hlast : s.after (1 + n + 1) = (s.after (1 + n)).afterPass := State.after_add s (1 + n) 1
  have hsaved : (s.after (1 + n)).slot k = s.pc := by
    rw [hcallee, after_slot_of_active fun j hj => hcallee j ▸ hk ▸ hdepth j hj.le]
    exact afterPass_slot_of_call hcall hop hk
  obtain ⟨hpcRet, hspRet⟩ := afterPass_of_ret (k := k) hret hopRet (hk ▸ hsp.symm)
  obtain ⟨-, hpc⟩ := State.canStep_iff.mp hcall
  rw [hlast, hpcRet, hsaved]
  exact ⟨add_two_toNat (Nat.le_of_lt_succ hpc), Fin.ext (hspRet.trans hk)⟩

end Sys2Proof.Machine
end

section
/-! PROOFS. The stack faults (spec/60_exceptions.md R70 to R73, R79): what a raised condition leaves, that it stays, and
what can raise one. -/

namespace Sys2Proof.Machine

/-- The outcome of R91 by which the stopped engine names a condition that was raised (notes/assumptions 1). -/
def Condition.fault : Condition → Fault
  | .stackOverflow => .stackOverflow
  | .stackUnderflow => .stackUnderflow

variable {s t : State}

/-! ## After a fault -/

theorem State.stopReason_raise (s : State) (c : Condition) : (s.raise c).stopReason = some c.fault := by
  cases c <;> rfl

/-- The guard is false from a fault on (R73). -/
theorem State.canStep_raise (s : State) (c : Condition) : (s.raise c).canStep = false := by
  cases c <;> rfl

/-- A step that raises is precise, and the fault is sticky: no pass leaves it, and there is no step (R73, R79). -/
theorem preciseAndSticky_of_step_raise {c : Condition} (h : step s = .next (s.raise c)) :
    ∃ t, step s = .next t ∧ t.status = c.status ∧ ChangesOnlyStatus s t ∧
      ∀ n, t.after n = t ∧ step (t.after n) = .fault c.fault := by
  refine ⟨s.raise c, h, rfl, changesOnlyStatus_withStatus s c.status, fun n => ?_⟩
  have hstay : (s.raise c).after n = s.raise c := after_of_stopped (s.canStep_raise c) n
  exact ⟨hstay, by rw [hstay, step_of_stopped (s.stopReason_raise c)]⟩

/-! ## What raises a condition -/

/-- CALL with a full stack raises `StackOverflow` (R71). -/
theorem step_of_call_full (hc : s.canStep = true) (hop : s.fetchWord.toNat / 4096 = 10) (hsp : s.sp.val = 16) :
    step s = .next (s.raise .stackOverflow) := by
  rw [step_of_canStep hc, decodeWord_call hop, exec_call_of_full _ hsp]

/-- RET with an empty stack raises `StackUnderflow` (R72). -/
theorem step_of_ret_empty (hc : s.canStep = true) (hop : s.fetchWord.toNat / 4096 = 11) (hsp : s.sp.val = 0) :
    step s = .next (s.raise .stackUnderflow) := by
  rw [step_of_canStep hc, decodeWord_ret hop, exec_ret_of_empty _ hsp]

/-- Settles O33: CALL and RET raise, and what a raise leaves is precise and sticky. -/
theorem stackFaultIsPreciseAndSticky : Obligations.StackFaultIsPreciseAndSticky := by
  intro s hrun hpc
  have hc : s.canStep = true := State.canStep_iff.mpr ⟨hrun, hpc⟩
  exact ⟨fun hop hsp => preciseAndSticky_of_step_raise (step_of_call_full hc hop hsp),
    fun hop hsp => preciseAndSticky_of_step_raise (step_of_ret_empty hc hop hsp)⟩

/-- A step over any other word than CALL's and RET's leads to neither fault state (R70). -/
theorem step_status_ne_fault (h : step s = .next t) (h10 : s.fetchWord.toNat / 4096 ≠ 10)
    (h11 : s.fetchWord.toNat / 4096 ≠ 11) : t.status ≠ .faultStackOverflow ∧ t.status ≠ .faultStackUnderflow := by
  rcases step_status_cases h with ⟨hrun, -⟩ | ⟨-, rfl⟩ | ⟨hop, -⟩ | ⟨hop, -⟩
  · rw [hrun]
    decide
  · exact ⟨nofun, nofun⟩
  · exact absurd hop h10
  · exact absurd hop h11

/-- Settles O46: memory never changes, so every word a run fetches is one that raises nothing. -/
theorem noFaultWithoutCallOrRet : Obligations.NoFaultWithoutCallOrRet := by
  intro s hover hunder hwords n
  have hkeep (u t : State) (hu : u.mem = s.mem ∧ u.status ≠ .faultStackOverflow ∧ u.status ≠ .faultStackUnderflow)
      (hstep : step u = .next t) :
      t.mem = s.mem ∧ t.status ≠ .faultStackOverflow ∧ t.status ≠ .faultStackUnderflow := by
    obtain ⟨hmem, -⟩ := hu
    obtain ⟨-, hpc, -⟩ := step_cases hstep
    obtain ⟨h10, h11⟩ := hwords u.pc.toNat hpc
    rw [← hmem] at h10 h11
    exact ⟨(step_mem hstep).trans hmem, step_status_ne_fault hstep h10 h11⟩
  exact (after_keeps hkeep ⟨rfl, hover, hunder⟩ n).right

end Sys2Proof.Machine
end

section
/-! PROOFS. Runs (spec/70_reset_and_hazards.md R90, R91, R98, R99): control flow does not read the registers, so a run
that never ends repeats its control part; the ways a run ends; the bound of a runner; the engine's moves in a session. -/

namespace Sys2Proof.Machine

variable {s t : State}

/-! ## Registers never reach the control part (R98) -/

/-- Agreeing in memory and control part is being the same state but for the register file. -/
theorem State.agreeButRegs_iff : State.AgreeButRegs s t ↔ ∃ r, t = { s with regs := r } := by
  constructor
  · rintro ⟨hmem, hcontrol⟩
    obtain ⟨hpc, hsp, hstack, hstatus⟩ := State.control_eq_iff.mp hcontrol
    cases s
    cases t
    cases hmem
    cases hpc
    cases hsp
    cases hstack
    cases hstatus
    exact ⟨_, rfl⟩
  · rintro ⟨r, rfl⟩
    exact ⟨rfl, rfl⟩

/-- A push neither reads nor writes a register. -/
theorem State.push?_withRegs (s : State) (r : Vector Byte 16) (v : Word) :
    ({ s with regs := r } : State).push? v = (s.push? v).map fun u => { u with regs := r } := by
  unfold State.push?
  split <;> rfl

/-- A pop neither reads nor writes a register. -/
theorem State.pop?_withRegs (s : State) (r : Vector Byte 16) :
    ({ s with regs := r } : State).pop? = s.pop?.map fun p => (p.1, { p.2 with regs := r }) := by
  obtain ⟨regs, mem, pc, stack, ⟨sp, hsp⟩, status⟩ := s
  cases sp <;> rfl

/-- From another register file an instruction leaves the same state but for the register file. -/
theorem exec_withRegs {i : Instr} (r : Vector Byte 16) (h : exec i s = .next t) :
    ∃ r', exec i { s with regs := r } = .next { t with regs := r' } := by
  cases i with
  | call a =>
    simp only [exec, execCall, State.push?_withRegs] at h ⊢
    cases hpush : s.push? s.pc with
    | none | some =>
      rw [hpush] at h
      cases h
      exact ⟨_, rfl⟩
  | ret g =>
    simp only [exec, execRet, State.pop?_withRegs] at h ⊢
    cases hpop : s.pop? with
    | none | some =>
      rw [hpop] at h
      cases h
      exact ⟨_, rfl⟩
  | halt | nop | addReg | addImm | orReg | orImm | andReg | andImm | movReg | movImm | jump | unimpOp0 | unimpHigh =>
    cases h
    exact ⟨_, rfl⟩

/-- Guard and fetch do not read the registers, and execution keeps the agreement. -/
theorem State.AgreeButRegs.afterPass (h : State.AgreeButRegs s t) : State.AgreeButRegs s.afterPass t.afterPass := by
  obtain ⟨r, rfl⟩ := State.agreeButRegs_iff.mp h
  rcases afterPass_cases s with ⟨hstop, e⟩ | ⟨hc, hstep⟩
  · rwa [e, afterPass_of_stopped (s := { s with regs := r }) hstop]
  · obtain ⟨-, hexec⟩ := step_eq_next hstep
    obtain ⟨r', hexec'⟩ := exec_withRegs r hexec
    rw [afterPass_of_exec (s := { s with regs := r }) hc rfl hexec']
    exact State.agreeButRegs_iff.mpr ⟨r', rfl⟩

theorem State.AgreeButRegs.after (h : State.AgreeButRegs s t) (n : Nat) :
    State.AgreeButRegs (s.after n) (t.after n) := by
  induction n generalizing s t with
  | zero => exact h
  | succ n ih => exact ih h.afterPass

/-- How a run has ended is read off its status and `pc`, not its registers (R91). -/
theorem State.AgreeButRegs.stopReason (h : State.AgreeButRegs s t) : s.stopReason = t.stopReason := by
  obtain ⟨r, rfl⟩ := State.agreeButRegs_iff.mp h
  rfl

/-- Settles O42: each pass keeps the agreement, and agreeing states have one outcome. -/
theorem registersNeverInfluenceControl : Obligations.RegistersNeverInfluenceControl :=
  fun _ _ h n => ⟨h.after n, (h.after n).stopReason⟩

/-! ## Finitely many control parts: a run that never ends is in a cycle (R98) -/

/-- A control part as numbers of bounded size. -/
def Control.key (c : Control) : Fin (2 ^ 16) × Fin 17 × (Fin 16 → Fin (2 ^ 16)) × Fin (2 ^ 2) :=
  (c.pc.toFin, c.sp, fun k => (c.stack.get k).toFin, c.status.code.toFin)

theorem Status.code_injective : Function.Injective Status.code := by
  intro a b
  cases a <;> cases b <;> decide

theorem Control.key_injective : Function.Injective Control.key := by
  rintro ⟨pc, sp, stack, status⟩ ⟨pc', sp', stack', status'⟩ h
  simp only [Control.key, Prod.mk.injEq] at h
  obtain ⟨hpc, hsp, hstack, hstatus⟩ := h
  obtain rfl : pc = pc' := BitVec.eq_of_toFin_eq hpc
  obtain rfl : stack = stack' :=
    Vector.ext fun k hk => BitVec.eq_of_toFin_eq (congrFun hstack ⟨k, hk⟩)
  obtain rfl : status = status' := Status.code_injective (BitVec.eq_of_toFin_eq hstatus)
  obtain rfl : sp = sp' := hsp
  rfl

/-- Two of the infinitely many passes leave the same control part. -/
theorem exists_lt_control_after_eq (s : State) :
    ∃ i j, i < j ∧ (s.after j).control = (s.after i).control := by
  obtain ⟨i, j, hne, hkey⟩ := Finite.exists_ne_map_eq_of_infinite fun n => (s.after n).control.key
  have heq := Control.key_injective hkey
  rcases Nat.lt_or_gt_of_ne hne with h | h
  · exact ⟨i, j, h, heq.symm⟩
  · exact ⟨j, i, h, heq⟩

/-- From one control part and one memory on, the control parts are the same: once it recurs, it recurs for ever. -/
theorem control_after_add_eq {i j : Nat} (h : (s.after j).control = (s.after i).control) (k : Nat) :
    (s.after (j + k)).control = (s.after (i + k)).control := by
  have hagree : State.AgreeButRegs (s.after j) (s.after i) := ⟨(after_mem s j).trans (after_mem s i).symm, h⟩
  rw [State.after_add, State.after_add]
  exact (hagree.after k).right

/-- Settles O43: a run that never ends comes to a control part it had before, and from there on it is in a cycle. -/
theorem runEndsOrCyclesForEver : Obligations.RunEndsOrCyclesForEver := by
  intro s
  by_cases hends : s.RunEnds
  · exact .inl hends
  · have hgoes (n : Nat) : (s.after n).canStep = true := Bool.of_not_eq_false fun hstop => hends ⟨n, hstop⟩
    obtain ⟨i, j, hlt, heq⟩ := exists_lt_control_after_eq s
    refine .inr ⟨i, j - i, Nat.sub_pos_of_lt hlt, fun k => ⟨hgoes (i + k), ?_⟩⟩
    rw [Nat.add_sub_cancel' hlt.le]
    exact control_after_add_eq heq k

/-! ## The bound of a runner (R98, D20) -/

theorem runFuel_eq_ended_iff {n : Nat} {r : Fault} :
    runFuel n s = .ended r t ↔ (s.after n).stopReason = some r ∧ s.after n = t := by
  unfold runFuel
  split
  case h_1 q hq => rw [hq, RunResult.ended.injEq, Option.some.injEq]
  case h_2 hn => exact iff_of_false nofun fun ⟨hr, _⟩ => nomatch hn.symm.trans hr

theorem State.canStep_eq_false_of_stopReason {r : Fault} (h : s.stopReason = some r) : s.canStep = false :=
  Bool.eq_false_iff.mpr fun hc => nomatch (State.stopReason_eq_none_iff.mpr hc).symm.trans h

/-- A run that has ended has ended in the same state under every larger bound. -/
theorem after_eq_of_stopped {n m : Nat} (hle : n ≤ m) (h : (s.after n).canStep = false) : s.after m = s.after n := by
  rw [← Nat.add_sub_cancel' hle, State.after_add, after_of_stopped h]

theorem runFuel_mono {r : Fault} {n m : Nat} (hle : n ≤ m) (h : runFuel n s = .ended r t) :
    runFuel m s = .ended r t := by
  obtain ⟨hr, ht⟩ := runFuel_eq_ended_iff.mp h
  have hm : s.after m = s.after n := after_eq_of_stopped hle (State.canStep_eq_false_of_stopReason hr)
  exact runFuel_eq_ended_iff.mpr ⟨by rwa [hm], hm.trans ht⟩

/-- Settles O44: the larger of two bounds sees what each of them sees. -/
theorem runOutcomeDoesNotDependOnFuel : Obligations.RunOutcomeDoesNotDependOnFuel := by
  refine ⟨fun s t r n m => runFuel_mono, fun s t u r q n m hn hm => ?_⟩
  have hn' := runFuel_mono (Nat.le_max_left n m) hn
  have hm' := runFuel_mono (Nat.le_max_right n m) hm
  exact RunResult.ended.inj (hn'.symm.trans hm')

/-! ## The ways a run ends (R91) -/

/-- Settles O37, by `step_stopRecorded`. -/
theorem stepLeavesStopRecord : Obligations.StepLeavesStopRecord := fun _ _ => step_stopRecorded

/-- The outcome is named by the run state, and while that is Running by `pc` (D9, D19). -/
theorem State.stopReason_eq_some_cases {r : Fault} (h : s.stopReason = some r) :
    (r = .halted ∧ s.status = .halted) ∨ (r = .offTheEnd ∧ s.status = .running ∧ 4095 ≤ s.pc.toNat) ∨
    (r = .stackOverflow ∧ s.status = .faultStackOverflow) ∨
    (r = .stackUnderflow ∧ s.status = .faultStackUnderflow) := by
  unfold State.stopReason at h
  cases hstatus : s.status <;> rw [hstatus] at h
  case running =>
    obtain ⟨hpc, hr⟩ := Option.ite_none_left_eq_some.mp h
    exact .inr (.inl ⟨(Option.some.inj hr).symm, rfl, Nat.le_of_not_lt hpc⟩)
  case halted => exact .inl ⟨(Option.some.inj h).symm, rfl⟩
  case faultStackOverflow => exact .inr (.inr (.inl ⟨(Option.some.inj h).symm, rfl⟩))
  case faultStackUnderflow => exact .inr (.inr (.inr ⟨(Option.some.inj h).symm, rfl⟩))

/-- Both invariants hold after any number of passes. -/
theorem after_inv_stopRecorded (hinv : s.Inv) (hstop : s.StopRecorded) (n : Nat) :
    (s.after n).Inv ∧ (s.after n).StopRecorded :=
  after_keeps (P := fun u => u.Inv ∧ u.StopRecorded)
    (fun u v ⟨h, _⟩ hstep => ⟨stepKeepsInvariant u v h hstep, step_stopRecorded hstep⟩) ⟨hinv, hstop⟩ n

/-- Settles O45: the run state names the way, and the invariants of the final state say the rest. -/
theorem runEndsInOneOfFourWays : Obligations.RunEndsInOneOfFourWays := by
  intro s t r n hinv hstop hrun
  obtain ⟨hr, rfl⟩ := runFuel_eq_ended_iff.mp hrun
  obtain ⟨⟨hpcle, -⟩, hhalt, hover, hunder⟩ := after_inv_stopRecorded hinv hstop n
  rcases State.stopReason_eq_some_cases hr with ⟨rfl, hst⟩ | ⟨rfl, hst, hpc⟩ | ⟨rfl, hst⟩ | ⟨rfl, hst⟩
  · exact .inl ⟨rfl, hst, hhalt hst⟩
  · exact .inr (.inl ⟨rfl, hst, by omega⟩)
  · obtain ⟨-, hop, hsp⟩ := hover hst
    exact .inr (.inr (.inl ⟨rfl, hst, (opField_toNat _).symm.trans hop, hsp⟩))
  · obtain ⟨-, hop, hsp⟩ := hunder hst
    exact .inr (.inr (.inr ⟨rfl, hst, (opField_toNat _).symm.trans hop, hsp⟩))

/-- Settles O27: each answer is the `stopReason` of the state. -/
theorem stoppedEngineNamesItsOutcome : Obligations.StoppedEngineNamesItsOutcome := by
  intro s
  refine ⟨fun h => step_of_stopped ?_, fun h hpc => step_of_stopped (State.stopReason_offTheEnd h hpc),
    fun h => step_of_stopped ?_, fun h => step_of_stopped ?_⟩ <;> rw [State.stopReason, h]

/-! ## The engine's moves in a session (R90) -/

/-- While Executing a move is the step where there is one. -/
theorem Session.tick_of_next {c : Session} (hex : c.phase = .executing) (h : step c.core = .next t) :
    c.tick.1 = ⟨.executing, t⟩ := by
  simp only [Session.tick, hex, h]

/-- While Executing a move is the change to Stopped where there is no step. -/
theorem Session.tick_of_stopped {c : Session} (hex : c.phase = .executing) (h : c.core.canStep = false) :
    c.tick.1 = ⟨.stopped, c.core⟩ := by
  obtain ⟨r, hr⟩ := step_of_canStep_false h
  simp only [Session.tick, hex, hr]

@[simp] theorem Session.ticks_succ (c : Session) (n : Nat) : c.ticks (n + 1) = c.tick.1.ticks n := rfl

/-- In Stopped the engine does not move. -/
theorem Session.ticks_stopped (s : State) (n : Nat) : (⟨.stopped, s⟩ : Session).ticks n = ⟨.stopped, s⟩ := by
  induction n with
  | zero => rfl
  | succ n ih => exact ih

/-- Settles O54, by induction on the number of moves: a move that steps is a pass, and the move to Stopped is made where
passes change nothing any more. -/
theorem sessionFollowsTheRunLoop : Obligations.SessionFollowsTheRunLoop := by
  intro c n hex
  induction n generalizing c with
  | zero => exact ⟨rfl, .inl hex⟩
  | succ n ih =>
    rw [Session.ticks_succ, State.after_succ]
    rcases afterPass_cases c.core with ⟨hstop, e⟩ | ⟨-, hstep⟩
    · rw [Session.tick_of_stopped hex hstop, Session.ticks_stopped, e, after_of_stopped hstop]
      exact ⟨rfl, .inr ⟨rfl, hstop⟩⟩
    · rw [Session.tick_of_next hex hstep]
      exact ih ⟨.executing, c.core.afterPass⟩ rfl

/-! ## A word placed for the next step (R86; notes/assumptions 5) -/

/-- The address a word is placed at is one a step is taken at. -/
theorem State.placeWord_pc_lt (s : State) (w : Word) : (s.placeWord w).pc.toNat < Config.fetchLimit := by
  rw [State.placeWord]
  dsimp only
  split
  case isTrue h => exact h
  case isFalse => decide

theorem State.canStep_placeWord (s : State) (w : Word) : (s.placeWord w).canStep = true :=
  State.canStep_iff.mpr ⟨rfl, s.placeWord_pc_lt w⟩

/-- A word placed is the word fetched. -/
theorem State.fetchWord_placeWord (w : Word) (h : s.mem.wf = true) : (s.placeWord w).fetchWord = w :=
  Memory.readWord_writeWord h ((s.placeWord_pc_lt w).trans (by decide))

/-- A row of 16 bits is the word of its number. -/
theorem State.withFetchWord_toNat (s : State) (w : Word) : s.withFetchWord 16 w.toNat = s.placeWord w := by
  rw [State.withFetchWord, Nat.mod_eq_of_lt w.isLt, BitVec.ofNat_toNat, BitVec.setWidth_eq]

/-- Settles O56: the guard holds where the word is placed, and the word is fetched. -/
theorem placedWordRunsNext : Obligations.PlacedWordRunsNext := by
  intro s w hwf
  rw [State.withFetchWord_toNat, step_of_canStep (s.canStep_placeWord w), State.fetchWord_placeWord w hwf]

end Sys2Proof.Machine
end

section
/-! PROOFS. The host's operations (spec/70_reset_and_hazards.md R85 to R94): the phase decides whether an operation is
done (R87), and each operation has one equation per answer. -/

namespace Sys2Proof.Machine

variable {c : Session}

/-! ## The phase test (R87, D11) -/

theorem Session.host_of_not_allowed {op : HostOp} (h : op.allowedIn c.phase = false) :
    c.host op = (.notAllowed, c) :=
  if_neg (Bool.eq_false_iff.mp h)

/-- While Executing no operation is allowed. -/
theorem HostOp.allowedIn_of_executing {p : Phase} (op : HostOp) (h : p = .executing) : op.allowedIn p = false := by
  rw [h]
  rfl

/-- In Loading every operation is allowed. -/
theorem HostOp.allowedIn_of_loading {p : Phase} (op : HostOp) (h : p = .loading) : op.allowedIn p = true := by
  rw [h]
  rfl

/-- What Stopped does not allow, the pokes, is not allowed outside Loading. -/
theorem HostOp.not_allowedIn_of_ne_loading {op : HostOp} {p : Phase} (hop : op.allowedIn .stopped = false)
    (h : p ≠ .loading) : op.allowedIn p = false := by
  cases p with
  | loading => exact absurd rfl h
  | executing => rfl
  | stopped => exact hop

/-- What Stopped allows is allowed in Loading too. -/
theorem HostOp.allowedIn_of_stopped {op : HostOp} {p : Phase} (hop : op.allowedIn .stopped = true)
    (h : p = .loading ∨ p = .stopped) : op.allowedIn p = true := by
  rcases h with rfl | rfl
  · rfl
  · exact hop

/-- Settles O52: the phase test refuses each operation. -/
theorem hostHasNoMoveWhileExecuting : Obligations.HostHasNoMoveWhileExecuting :=
  fun _ op hex => Session.host_of_not_allowed (op.allowedIn_of_executing hex)

/-! ## RESET and RUN -/

/-- Settles O47: Loading and Stopped both allow RESET. -/
theorem hostResetForgetsEverything : Obligations.HostResetForgetsEverything := by
  rintro ⟨phase, s⟩ hne
  cases phase with
  | executing => exact absurd rfl hne
  | loading | stopped => rfl

/-- Settles O53: RUN by phase, and the engine's move by the guard. -/
theorem runExecutesUntilTheGuardFails : Obligations.RunExecutesUntilTheGuardFails := by
  rintro ⟨phase, s⟩
  refine ⟨?_, ?_, fun t hex hstep => Session.tick_of_next hex hstep, fun hex hguard => ?_⟩
  · rintro rfl
    rfl
  · rintro rfl
    rfl
  · exact Session.tick_of_stopped hex (Bool.eq_false_iff.mpr fun hc => hguard (State.canStep_iff.mp hc))

/-! ## POKE_REG and POKE_MEM -/

theorem Session.host_pokeReg_of_loading (h : c.phase = .loading) (i : Nat) (v : Byte) :
    c.host (.pokeReg i v) = c.pokeReg i v :=
  if_pos (HostOp.allowedIn_of_loading _ h)

theorem Session.host_pokeMem_of_loading (h : c.phase = .loading) (a : Nat) (v : Byte) :
    c.host (.pokeMem a v) = c.pokeMem a v :=
  if_pos (HostOp.allowedIn_of_loading _ h)

theorem Session.pokeReg_of_regIdx (c : Session) (i : RegIdx) (v : Byte) :
    c.pokeReg i.val v = (.done, { c with core := c.core.writeReg i v }) :=
  dif_pos i.isLt

theorem Session.pokeReg_of_gt {i : Nat} (h : 15 < i) (v : Byte) : c.pokeReg i v = (.outOfRange, c) :=
  dif_neg (Nat.not_lt.mpr h)

theorem Session.pokeMem_of_le {a : Nat} (h : a ≤ 4095) (v : Byte) :
    c.pokeMem a v = (.done, { c with core := { c.core with mem := c.core.mem.write a v } }) := by
  have hw : c.core.mem.writeCell? a v = some (c.core.mem.write a v) := if_pos (Nat.lt_succ_of_le h)
  rw [Session.pokeMem, hw]

theorem Session.pokeMem_of_gt {a : Nat} (h : 4095 < a) (v : Byte) : c.pokeMem a v = (.outOfRange, c) := by
  have hw : c.core.mem.writeCell? a v = none := if_neg (Nat.not_lt.mpr h)
  rw [Session.pokeMem, hw]

/-- A register write changes one register and nothing else, `pc` included (R88). -/
theorem changesOnlyRegAndPc_writeReg (s : State) (i : RegIdx) (v : Byte) :
    ChangesOnlyRegAndPc i s (s.writeReg i v) :=
  ⟨fun _ hj => State.readReg_writeReg_other s v hj, fun a => by rw [State.writeReg_mem],
    ⟨State.slot_congr (State.writeReg_stack s i v), State.writeReg_sp s i v⟩, State.writeReg_status s i v⟩

/-- Settles O48: the phase test, then the range test of the index. -/
theorem hostPokesOneRegister : Obligations.HostPokesOneRegister := by
  intro c v
  refine ⟨fun i hload => ⟨c.core.writeReg i v, ?_, State.readReg_writeReg_same c.core i v,
    State.writeReg_pc c.core i v, changesOnlyRegAndPc_writeReg c.core i v⟩, fun i hload hi => ?_, fun i hne => ?_⟩
  · rw [Session.host_pokeReg_of_loading hload, Session.pokeReg_of_regIdx, hload]
  · rw [Session.host_pokeReg_of_loading hload, Session.pokeReg_of_gt hi]
  · exact Session.host_of_not_allowed (HostOp.not_allowedIn_of_ne_loading rfl hne)

/-- Settles O49: the phase test, then the range test of the address. -/
theorem hostPokesOneCell : Obligations.HostPokesOneCell := by
  intro c a v hwf
  refine ⟨fun hload ha => ⟨{ c.core with mem := c.core.mem.write a v }, ?_, Memory.wf_write hwf (Nat.lt_succ_of_le ha),
    Memory.read_write_same hwf, fun b hb => Memory.read_write_other hb.symm, fun _ => rfl, ⟨fun _ => rfl, rfl⟩, rfl,
    rfl⟩, fun hload ha => ?_, fun hne => ?_⟩
  · rw [Session.host_pokeMem_of_loading hload, Session.pokeMem_of_le ha, hload]
  · rw [Session.host_pokeMem_of_loading hload, Session.pokeMem_of_gt ha]
  · exact Session.host_of_not_allowed (HostOp.not_allowedIn_of_ne_loading rfl hne)

/-! ## The reads -/

theorem Session.readReg_of_regIdx (c : Session) (i : RegIdx) : c.readReg i.val = (.byte (c.core.readReg i), c) :=
  dif_pos i.isLt

theorem Session.readReg_of_gt {i : Nat} (h : 15 < i) : c.readReg i = (.outOfRange, c) :=
  dif_neg (Nat.not_lt.mpr h)

theorem Session.readMem_of_le {a : Nat} (h : a ≤ 4095) : c.readMem a = (.byte (c.core.mem.read a), c) := by
  have hr : c.core.mem.readCell? a = some (c.core.mem.read a) := if_pos (Nat.lt_succ_of_le h)
  rw [Session.readMem, hr]

theorem Session.readMem_of_gt {a : Nat} (h : 4095 < a) : c.readMem a = (.outOfRange, c) := by
  have hr : c.core.mem.readCell? a = none := if_neg (Nat.not_lt.mpr h)
  rw [Session.readMem, hr]

/-- Settles O50: READ_REG is allowed in both phases, and answers by the range of its index. -/
theorem hostReadsOneRegister : Obligations.HostReadsOneRegister := by
  intro c hphase
  have hread (i : Nat) : c.host (.readReg i) = c.readReg i := if_pos (HostOp.allowedIn_of_stopped rfl hphase)
  exact ⟨fun i => (hread i.val).trans (c.readReg_of_regIdx i), fun i hi => (hread i).trans (Session.readReg_of_gt hi)⟩

/-- Settles O51: the three reads are allowed in both phases, and READ_MEM answers by the range of its address. -/
theorem hostReadsPcStatusAndMemory : Obligations.HostReadsPcStatusAndMemory := by
  intro c hphase
  have hread (a : Nat) : c.host (.readMem a) = c.readMem a := if_pos (HostOp.allowedIn_of_stopped rfl hphase)
  exact ⟨if_pos (HostOp.allowedIn_of_stopped rfl hphase), if_pos (HostOp.allowedIn_of_stopped rfl hphase),
    fun a ha => (hread a).trans (Session.readMem_of_le ha), fun a ha => (hread a).trans (Session.readMem_of_gt ha)⟩

end Sys2Proof.Machine
end

section
/-! PROOFS. The decode vectors T-DEC-6 to T-DEC-13 (spec/95_test_vectors.md). -/

namespace Sys2Proof

/-- Settles O19: each word takes the decoder lemma of its opcode's row; what is left to compute is its fields. -/
theorem sampleWordsDecode : Obligations.SampleWordsDecode :=
  ⟨decodeWord_addReg (w := 0x1ABC#16) rfl, decodeWord_addImm (w := 0x2F0F#16) rfl,
    decodeWord_andImm (w := 0x60F2#16) rfl, decodeWord_movReg (w := 0x731F#16) rfl,
    decodeWord_movImm (w := 0x812F#16) rfl, decodeWord_jump (w := 0x9FFF#16) rfl,
    decodeWord_call (w := 0xA100#16) rfl, decodeWord_ret (w := 0xBABC#16) rfl⟩

end Sys2Proof
end
